-- ==== Sys2Proof/Word.lean ====
section
/-! DEFINITION. The value types of the spec (00_scope.md R8): Byte, Word, Block, the 4x4 byte matrix the spec calls
State (here AesState, since State is the machine's), and the enumerations MODE, MODE_START's mode field and ERRCODE. -/

namespace Sys2Proof

/-- An 8-bit unsigned value, bit 7 most significant (00_scope.md R8). -/
abbrev Byte := BitVec 8

/-- A 32-bit unsigned value, bits 31..0 (00_scope.md R8). -/
abbrev Word := BitVec 32

/-- A sequence of 16 Bytes indexed 0..15 (00_scope.md R8). -/
abbrev Block := Vector Byte 16

/-- The 4x4 byte matrix: entry r is row r, and entry c of a row is column c (00_scope.md R8). -/
abbrev AesState := Vector (Vector Byte 4) 4

/-- The round-key file RK[0..10] (10_state.md R29). -/
abbrev RoundKeys := Vector AesState 11

/-- MODE, the state of the mode controller (10_state.md R33). -/
inductive Mode where
  | idle
  | cbcEnc
  | cbcDec
  | ctr
deriving DecidableEq, Repr

/-- The legal values of MODE_START's mode field: 0 CBC_ENC, 1 CBC_DEC, 2 CTR (30_encoding.md R82). -/
inductive StartMode where
  | cbcEnc
  | cbcDec
  | ctr
deriving DecidableEq, Repr

/-- The values ERRCODE takes (60_exceptions.md R280); the codes 4..15 are never produced, so they have no constructor. -/
inductive ErrCode where
  | ok
  | illegalCmd
  | unsupportedMode
  | sequenceErr
deriving DecidableEq, Repr

end Sys2Proof
end

