-- ==== Sys2Proof/Config.lean ====
section
/-! DEFINITION. What the spec leaves open as a named parameter (00_scope.md R7; 92_eei_decisions.md, OPEN parameters).
The two latencies CMD_LATENCY and RESET_BUILD_LATENCY are scheduling freedom (State.inputs), not constants. -/

namespace Sys2Proof

/-- CORE_BASE, the platform's choice of the window's base address (20_memory.md R50). It has no body: nothing can
evaluate it, so what is proved holds for every base. -/
opaque Config.coreBase : Nat

/-- The free value of the random-bytes port: the Block that request number n of RngRead() returns
(45_mode_controller.md R236; 92_eei_decisions.md D25; log entry 5). It has no body. -/
opaque Config.rngDraw : Nat → Block

end Sys2Proof
end

