-- ==== Sys2Proof/Syntax.lean ====
section
/-! DEFINITION. The commands of the core, one constructor per row of spec/opcode_table.json (30_encoding.md R84). -/

namespace Sys2Proof

/-- The twenty commands. Only ADD_ROUND_KEY and MODE_START carry operands in the word (30_encoding.md R82); every other
operand is a named register fixed by the opcode. -/
inductive Instr where
  | nop
  | gfMul
  | gfInv
  | sboxFwd
  | sboxInv
  | loadState
  | storeState
  | subBytes
  | invSubBytes
  | shiftRows
  | invShiftRows
  | mixColumns
  | invMixColumns
  | addRoundKey (idx : BitVec 4)
  | keyExpand
  | encryptBlock
  | decryptBlock
  | modeStart (mode : StartMode) (rng : Bool)
  | modeBlock
  | modeEnd
deriving DecidableEq, Repr

end Sys2Proof
end

