-- ==== Sys2Proof/WellFormed.lean ====
section
/-! DEFINITION. Which terms of Instr are legal commands: the operand checks of 30_encoding.md R85. -/

namespace Sys2Proof

/-- ADD_ROUND_KEY's idx is 0..10, and MODE_START does not combine CBC_DEC with rng = 1 (30_encoding.md R82, R85). -/
def Instr.wf : Instr → Bool
  | .addRoundKey idx => decide (idx.toNat ≤ 10)
  | .modeStart mode rng => !(decide (mode = .cbcDec) && rng)
  | .nop | .gfMul | .gfInv | .sboxFwd | .sboxInv | .loadState | .storeState | .subBytes | .invSubBytes | .shiftRows
  | .invShiftRows | .mixColumns | .invMixColumns | .keyExpand | .encryptBlock | .decryptBlock | .modeBlock | .modeEnd => true

end Sys2Proof
end

