-- ==== Sys2Proof/Decode.lean ====
section
/-! DEFINITION. Decoding a command word (30_encoding.md R85), total on every Word and rejecting by the error code the
rule names, and the encoder written from the same tables (R80, R82, R84, R88). -/

namespace Sys2Proof

/-- OP = w[7:0] (30_encoding.md R80). -/
def cmdOp (w : Word) : BitVec 8 := w.extractLsb' 0 8

/-- ARG = w[11:8] (30_encoding.md R80). -/
def cmdArg (w : Word) : BitVec 4 := w.extractLsb' 8 4

/-- RSV = w[31:12] (30_encoding.md R80). -/
def cmdRsv (w : Word) : BitVec 20 := w.extractLsb' 12 20

/-- The opcode map's rows whose ARG must be 0 (30_encoding.md R84). -/
def plainOps : List (BitVec 8 × Instr) :=
  [(0x00, .nop), (0x01, .gfMul), (0x02, .gfInv), (0x03, .sboxFwd), (0x04, .sboxInv)] ++
  [(0x10, .loadState), (0x11, .storeState), (0x12, .subBytes), (0x13, .invSubBytes), (0x14, .shiftRows)] ++
  [(0x15, .invShiftRows), (0x16, .mixColumns), (0x17, .invMixColumns)] ++
  [(0x20, .keyExpand), (0x21, .encryptBlock), (0x22, .decryptBlock), (0x31, .modeBlock), (0x32, .modeEnd)]

/-- ADD_ROUND_KEY's own check: idx above 10 is ILLEGAL_CMD (30_encoding.md R85). -/
def decodeAddRoundKey (arg : BitVec 4) : Except ErrCode Instr :=
  if arg.toNat > 10 then .error .illegalCmd else .ok (.addRoundKey arg)

/-- MODE_START's own checks in the order of 30_encoding.md R85: arg[3], then mode = 3, then CBC_DEC with rng = 1. -/
def decodeModeStart (arg : BitVec 4) : Except ErrCode Instr :=
  if arg.getLsbD 3 then .error .illegalCmd
  else
    let rng := arg.getLsbD 2
    match (arg.extractLsb' 0 2).toNat with
    | 0 => .ok (.modeStart .cbcEnc rng)
    | 1 => if rng then .error .illegalCmd else .ok (.modeStart .cbcDec rng)
    | 2 => .ok (.modeStart .ctr rng)
    | _ => .error .unsupportedMode

/-- decode_cmd of 30_encoding.md R85: RSV, then OP, then the opcode's own field checks, then ARG = 0 for the rest. -/
def decodeCmd (w : Word) : Except ErrCode Instr :=
  if cmdRsv w ≠ 0 then .error .illegalCmd
  else if cmdOp w = 0x18 then decodeAddRoundKey (cmdArg w)
  else if cmdOp w = 0x30 then decodeModeStart (cmdArg w)
  else
    match plainOps.lookup (cmdOp w) with
    | none => .error .illegalCmd
    | some i => if cmdArg w ≠ 0 then .error .illegalCmd else .ok i

/-- The OP value of a command (30_encoding.md R84). -/
def Instr.opcode : Instr → BitVec 8
  | .nop => 0x00
  | .gfMul => 0x01
  | .gfInv => 0x02
  | .sboxFwd => 0x03
  | .sboxInv => 0x04
  | .loadState => 0x10
  | .storeState => 0x11
  | .subBytes => 0x12
  | .invSubBytes => 0x13
  | .shiftRows => 0x14
  | .invShiftRows => 0x15
  | .mixColumns => 0x16
  | .invMixColumns => 0x17
  | .addRoundKey _ => 0x18
  | .keyExpand => 0x20
  | .encryptBlock => 0x21
  | .decryptBlock => 0x22
  | .modeStart _ _ => 0x30
  | .modeBlock => 0x31
  | .modeEnd => 0x32

/-- The mode field of MODE_START (30_encoding.md R82, R88). -/
def StartMode.code : StartMode → BitVec 2
  | .cbcEnc => 0
  | .cbcDec => 1
  | .ctr => 2

/-- The ARG value of a command: idx, or 0, rng, mode[1:0] from the top bit down, or 0 (30_encoding.md R82). -/
def Instr.arg : Instr → BitVec 4
  | .addRoundKey idx => idx
  | .modeStart mode rng => ((BitVec.ofBool rng).setWidth 4 <<< 2) ||| mode.code.setWidth 4
  | .nop | .gfMul | .gfInv | .sboxFwd | .sboxInv | .loadState | .storeState | .subBytes | .invSubBytes | .shiftRows
  | .invShiftRows | .mixColumns | .invMixColumns | .keyExpand | .encryptBlock | .decryptBlock | .modeBlock | .modeEnd => 0

/-- The command word: OP | ARG << 8, with RSV = 0 (30_encoding.md R80, R88). -/
def encode (i : Instr) : Word := (i.arg.setWidth 32 <<< 8) ||| i.opcode.setWidth 32

/-- What the decoder reads from a word of the opcode table's numbering. Every command is exactly one 32-bit Word
(30_encoding.md R87), so bits at or above nbits are 0 and a number that needs more than 32 bits is no command. -/
def decodeTableWord (nbits w : Nat) : Option Instr :=
  if w % 2 ^ nbits < 2 ^ 32 then (decodeCmd (BitVec.ofNat 32 (w % 2 ^ nbits))).toOption else none

/-- The mnemonic of 30_encoding.md R84. -/
def Instr.mnemonic : Instr → String
  | .nop => "NOP"
  | .gfMul => "GF_MUL"
  | .gfInv => "GF_INV"
  | .sboxFwd => "SBOX_FWD"
  | .sboxInv => "SBOX_INV"
  | .loadState => "LOAD_STATE"
  | .storeState => "STORE_STATE"
  | .subBytes => "SUB_BYTES"
  | .invSubBytes => "INV_SUB_BYTES"
  | .shiftRows => "SHIFT_ROWS"
  | .invShiftRows => "INV_SHIFT_ROWS"
  | .mixColumns => "MIX_COLUMNS"
  | .invMixColumns => "INV_MIX_COLUMNS"
  | .addRoundKey _ => "ADD_ROUND_KEY"
  | .keyExpand => "KEY_EXPAND"
  | .encryptBlock => "ENCRYPT_BLOCK"
  | .decryptBlock => "DECRYPT_BLOCK"
  | .modeStart _ _ => "MODE_START"
  | .modeBlock => "MODE_BLOCK"
  | .modeEnd => "MODE_END"

/-- The name of a MODE_START mode in host programs (30_encoding.md R88). -/
def StartMode.text : StartMode → String
  | .cbcEnc => "CBC_ENC"
  | .cbcDec => "CBC_DEC"
  | .ctr => "CTR"

/-- How a command is written in a host program (30_encoding.md R88). -/
def Instr.asmText (i : Instr) : String :=
  match i with
  | .addRoundKey idx => i.mnemonic ++ " " ++ toString idx.toNat
  | .modeStart mode rng => i.mnemonic ++ " " ++ mode.text ++ (if rng then ", RNG" else "")
  | .nop | .gfMul | .gfInv | .sboxFwd | .sboxInv | .loadState | .storeState | .subBytes | .invSubBytes | .shiftRows
  | .invShiftRows | .mixColumns | .invMixColumns | .keyExpand | .encryptBlock | .decryptBlock | .modeBlock
  | .modeEnd => i.mnemonic

/-- The assembler refuses ADD_ROUND_KEY with n above 10 and MODE_START CBC_DEC, RNG (30_encoding.md R88). -/
def assemble (i : Instr) : Option Word := if i.wf then some (encode i) else none

end Sys2Proof
end

