-- ==== Sys2Proof/Machine/Codec.lean ====
section
/-! DEFINITION. Blocks and State matrices: element access, XOR, byte strings, bus words of a Block (00_scope.md R9;
20_memory.md R53, R55), and the codec between the two (41_state_codec.md R140, R141). -/

namespace Sys2Proof.Machine

/-- The Block whose byte i is f i. -/
def mkBlock (f : Fin 16 → Byte) : Block := Vector.ofFn f

/-- The State matrix with entry f r c in row r and column c. -/
def mkState (f : Fin 4 → Fin 4 → Byte) : AesState := Vector.ofFn fun r => Vector.ofFn fun c => f r c

/-- st[r][c] (00_scope.md R8). -/
def cell (s : AesState) (r c : Fin 4) : Byte := (s.get r).get c

/-- XOR of two Blocks, element by element (00_scope.md R9). -/
def blockXor (a b : Block) : Block := mkBlock fun i => a.get i ^^^ b.get i

/-- decode: st[r][c] = block[4c + r] (41_state_codec.md R140). -/
def decodeBlock (b : Block) : AesState := mkState fun r c => b.get ⟨4 * c.val + r.val, by omega⟩

/-- encode: block[i] = st[i mod 4][i div 4] (41_state_codec.md R141). -/
def encodeState (s : AesState) : Block :=
  mkBlock fun i => cell s ⟨i.val % 4, by omega⟩ ⟨i.val / 4, by omega⟩

/-- Four bytes as a Word, byte k in bits 8k+7..8k: zext_32(b3 << 24 | b2 << 16 | b1 << 8 | b0) (20_memory.md R53, R55). -/
def packWord (b0 b1 b2 b3 : Byte) : Word :=
  (b3.setWidth 32 <<< 24) ||| (b2.setWidth 32 <<< 16) ||| (b1.setWidth 32 <<< 8) ||| b0.setWidth 32

/-- Byte lane k of a Word (20_memory.md R53). -/
def wordByte (w : Word) (k : Nat) : Byte := w.extractLsb' (8 * k) 8

/-- Word k of a Block: its bytes 4k..4k+3 (20_memory.md R55). -/
def blockWord (b : Block) (k : Fin 4) : Word :=
  packWord (b.get ⟨4 * k.val, by omega⟩) (b.get ⟨4 * k.val + 1, by omega⟩) (b.get ⟨4 * k.val + 2, by omega⟩)
    (b.get ⟨4 * k.val + 3, by omega⟩)

/-- Word k of a Block replaced: B[4k+j] <- w[8j+7:8j], the other 12 bytes unchanged (20_memory.md R55). -/
def setBlockWord (b : Block) (k : Fin 4) (w : Word) : Block :=
  mkBlock fun i => if i.val / 4 = k.val then wordByte w (i.val % 4) else b.get i

/-- The Block of the first 16 bytes of a byte string; a missing byte counts as 0. -/
def blockOfBytes (l : List Byte) : Block := mkBlock fun i => l.getD i.val 0

/-- The bytes of a Block, byte 0 first. -/
def blockBytes (b : Block) : List Byte := b.toList

end Sys2Proof.Machine
end

