-- ==== Sys2Proof/Machine/Field.lean ====
section
/-! DEFINITION. GF(2^8) arithmetic (40_field_arithmetic.md R110 to R114) and the table builder's two affine maps
(R116, R117). -/

namespace Sys2Proof.Machine

/-- xtime: doubling with reduction by 0x11B (40_field_arithmetic.md R112). -/
def xtime (a : Byte) : Byte := (a <<< 1) ^^^ (if a.getLsbD 7 then 0x1B else 0x00)

/-- One turn of gmul's loop for bit i of b: the pair is (p, a) (40_field_arithmetic.md R113). -/
def gmulStep (b : Byte) (pa : Byte × Byte) (i : Nat) : Byte × Byte :=
  (if b.getLsbD i then pa.1 ^^^ pa.2 else pa.1, xtime pa.2)

/-- gmul: repeated doubling with reduction, summed over the set bits of b (40_field_arithmetic.md R113). -/
def gmul (a b : Byte) : Byte := ((List.range 8).foldl (gmulStep b) (0, a)).1

/-- The search loop of ginv with at most the given number of tests (40_field_arithmetic.md R114). -/
def ginvLoop (a : Byte) : Nat → Byte → Byte
  | 0, result => result
  | fuel + 1, result => if gmul result a = 1 then result else ginvLoop a fuel (gmul result a)

/-- ginv: 0 for 0, else the search from result = a (40_field_arithmetic.md R114). The search needs at most 254 tests
(R126), so 255 never runs out (log entry 12). -/
def ginv (a : Byte) : Byte := if a = 0 then 0 else ginvLoop a 255 a

/-- rotl8 for n in 1..7 (00_scope.md R9). -/
def rotl8 (x : Byte) (n : Nat) : Byte := (x <<< n) ||| (x >>> (8 - n))

/-- sbox_entry of the table builder (40_field_arithmetic.md R116). -/
def sboxEntry (a : Byte) : Byte :=
  let b := ginv a
  b ^^^ rotl8 b 1 ^^^ rotl8 b 2 ^^^ rotl8 b 3 ^^^ rotl8 b 4 ^^^ 0x63

/-- inv_sbox_entry of the table builder (40_field_arithmetic.md R117). -/
def invSboxEntry (a : Byte) : Byte :=
  ginv (rotl8 a 1 ^^^ rotl8 a 3 ^^^ rotl8 a 6 ^^^ 0x05)

end Sys2Proof.Machine
end

