-- ==== Sys2Proof/Machine/Rounds.lean ====
section
/-! DEFINITION. The round transforms and their inverses as functions on State matrices (43_round_transforms.md R170 to
R176). -/

namespace Sys2Proof.Machine

/-- SubBytes (43_round_transforms.md R170). -/
def subBytes (s : AesState) : AesState := mkState fun r c => sbox (cell s r c)

/-- InvSubBytes (43_round_transforms.md R171). -/
def invSubBytes (s : AesState) : AesState := mkState fun r c => invSbox (cell s r c)

/-- ShiftRows: row r rotated left by r, s[r][(c + r) mod 4] (43_round_transforms.md R172). -/
def shiftRows (s : AesState) : AesState := mkState fun r c => cell s r ⟨(c.val + r.val) % 4, by omega⟩

/-- InvShiftRows: s[r][(c - r) mod 4] (43_round_transforms.md R173). -/
def invShiftRows (s : AesState) : AesState := mkState fun r c => cell s r ⟨(c.val + 4 - r.val) % 4, by omega⟩

/-- m = [0x02, 0x03, 0x01, 0x01] (43_round_transforms.md R174). -/
def mixCoeffs : Vector Byte 4 := #v[0x02, 0x03, 0x01, 0x01]

/-- im = [0x0E, 0x0B, 0x0D, 0x09] (43_round_transforms.md R175). -/
def invMixCoeffs : Vector Byte 4 := #v[0x0E, 0x0B, 0x0D, 0x09]

/-- The right-rotated circulant: entry [r][k] is m[(k - r) mod 4] (43_round_transforms.md R174; 90_conflicts.md C4). -/
def circulant (m : Vector Byte 4) (r k : Fin 4) : Byte := m.get ⟨(k.val + 4 - r.val) % 4, by omega⟩

/-- A column matrix product over GF(2^8): the XOR over k in 0..3 of gmul(M[r][k], s[k][c]) (43_round_transforms.md R174). -/
def mixWith (m : Vector Byte 4) (s : AesState) : AesState :=
  mkState fun r c =>
    gmul (circulant m r 0) (cell s 0 c) ^^^ gmul (circulant m r 1) (cell s 1 c) ^^^
      gmul (circulant m r 2) (cell s 2 c) ^^^ gmul (circulant m r 3) (cell s 3 c)

/-- MixColumns (43_round_transforms.md R174). -/
def mixColumns (s : AesState) : AesState := mixWith mixCoeffs s

/-- InvMixColumns (43_round_transforms.md R175). -/
def invMixColumns (s : AesState) : AesState := mixWith invMixCoeffs s

/-- AddRoundKey: element-wise XOR (43_round_transforms.md R176). -/
def addRoundKey (s k : AesState) : AesState := mkState fun r c => cell s r c ^^^ cell k r c

end Sys2Proof.Machine
end

