-- ==== Sys2Proof/Machine/KeySchedule.lean ====
section
/-! DEFINITION. The AES-128 key schedule (42_key_schedule.md R150 to R153). -/

namespace Sys2Proof.Machine

/-- rc(i) for i in 1..10: 0x01 doubled i - 1 times (42_key_schedule.md R150). -/
def roundConst (i : Nat) : Byte := xtime^[i - 1] 0x01

/-- Steps 1 and 2 of a round: the last column of P rotated up by one row, substituted, and the round constant XORed
into row 0 (42_key_schedule.md R150 to R152). -/
def scheduleCore (i : Nat) (p : AesState) (r : Fin 4) : Byte :=
  sbox (cell p ⟨(r.val + 1) % 4, by omega⟩ 3) ^^^ (if r.val = 0 then roundConst i else 0)

/-- Row r of column j of the new key: column 0 by step 3, each later one from the column before it by step 4
(42_key_schedule.md R153). -/
def nextKeyColumn (i : Nat) (p : AesState) (r : Fin 4) : Nat → Byte
  | 0 => scheduleCore i p r ^^^ cell p r 0
  | j + 1 => cell p r ⟨(j + 1) % 4, by omega⟩ ^^^ nextKeyColumn i p r j

/-- Round key i from round key i - 1 (42_key_schedule.md R153). -/
def nextRoundKey (i : Nat) (p : AesState) : AesState := mkState fun r c => nextKeyColumn i p r c.val

/-- RKs[n]: the original key at 0, then each from the one before (42_key_schedule.md R153). -/
def roundKey (k : AesState) : Nat → AesState
  | 0 => k
  | n + 1 => nextRoundKey (n + 1) (roundKey k n)

/-- KeySchedule(K) (42_key_schedule.md R153). -/
def keySchedule (k : AesState) : RoundKeys := Vector.ofFn fun n : Fin 11 => roundKey k n.val

end Sys2Proof.Machine
end

