-- ==== Sys2Proof/Machine/Cipher.lean ====
section
/-! DEFINITION. encryptBlock and decryptBlock (44_block_cipher.md R200, R201) and the counter arithmetic of CTR
(45_mode_controller.md R221, R222). -/

namespace Sys2Proof.Machine

/-- A middle round of encryption (44_block_cipher.md R200). -/
def encRound (rks : RoundKeys) (s : AesState) (n : Fin 11) : AesState :=
  addRoundKey (mixColumns (shiftRows (subBytes s))) (rks.get n)

/-- A middle round of decryption (44_block_cipher.md R201). -/
def decRound (rks : RoundKeys) (s : AesState) (n : Fin 11) : AesState :=
  invSubBytes (invShiftRows (invMixColumns (addRoundKey s (rks.get n))))

/-- encryptBlock on State matrices with the round keys given (44_block_cipher.md R200). -/
def encryptWith (rks : RoundKeys) (s : AesState) : AesState :=
  let s9 := [1, 2, 3, 4, 5, 6, 7, 8, 9].foldl (encRound rks) (addRoundKey s (rks.get 0))
  addRoundKey (shiftRows (subBytes s9)) (rks.get 10)

/-- decryptBlock on State matrices with the round keys given (44_block_cipher.md R201). -/
def decryptWith (rks : RoundKeys) (s : AesState) : AesState :=
  let s9 := invSubBytes (invShiftRows (addRoundKey s (rks.get 10)))
  addRoundKey ([9, 8, 7, 6, 5, 4, 3, 2, 1].foldl (decRound rks) s9) (rks.get 0)

/-- encryptBlock(plaintextBlock, key) (44_block_cipher.md R200). -/
def encryptBlock (p k : Block) : Block := encodeState (encryptWith (keySchedule (decodeBlock k)) (decodeBlock p))

/-- decryptBlock(ciphertextBlock, key) (44_block_cipher.md R201). -/
def decryptBlock (c k : Block) : Block := encodeState (decryptWith (keySchedule (decodeBlock k)) (decodeBlock c))

/-- toInt: the 128-bit number of a counter Block, byte 0 most significant (45_mode_controller.md R221). -/
def ctrToInt (b : Block) : Nat := ((List.finRange 16).map fun i => (b.get i).toNat * 256 ^ (15 - i.val)).sum

/-- fromInt: the counter Block of a number (45_mode_controller.md R221). -/
def ctrFromInt (n : Nat) : Block := mkBlock fun i => BitVec.ofNat 8 (n >>> (8 * (15 - i.val)))

/-- ctr_inc: increment with silent wrap at 2^128 (45_mode_controller.md R222). -/
def ctrInc (b : Block) : Block := ctrFromInt ((ctrToInt b + 1) % 2 ^ 128)

end Sys2Proof.Machine
end

