-- ==== Sys2Proof/Machine/State.lean ====
section
/-! DEFINITION. The machine's state (10_state.md R20 to R38), its value after reset (R42), the events that come from
outside (00_scope.md R17), the bus responses the host sees (R18), and the reasons a step can stop. -/

namespace Sys2Proof.Machine

/-- Why a step stops with a fault. -/
inductive Fault where
  /-- Raised by a host access whose address lies outside the 4096-byte window. Such an access "never reaches the core;
  the platform's interconnect decides what it does" (20_memory.md R52). Safe: the model stops where the platform
  would go on, and the core's elements are not touched. -/
  | outsideWindow
deriving DecidableEq, Repr

/-- Why the model has no meaning for an instruction. -/
inductive Refusal where
  /-- Raised only by an arm of exec that has no meaning yet, under its mnemonic. Safe: the model stops. No arm raises
  it in this model. -/
  | notModelled (mnemonic : String)
deriving DecidableEq, Repr

/-- The two responses of the bus (20_memory.md R52, R62). -/
inductive BusResp where
  | okay
  | slverr
deriving DecidableEq, Repr

/-- A host access reads, or writes a Word (00_scope.md R11). The Word of a write that is not 32 bits wide is never
looked at, since the access is refused (20_memory.md R52). -/
inductive BusOp where
  | read
  | write (w : Word)
deriving DecidableEq, Repr

/-- One access by the host: its address in the host's map, its size in bytes, and what it does. -/
structure Access where
  addr : Nat
  size : Nat
  op   : BusOp
deriving DecidableEq, Repr

/-- Which agent acts next (00_scope.md R17): the host with one access, the core with its own step, the reset input. -/
inductive Event where
  | host (a : Access)
  | core
  | reset
deriving DecidableEq, Repr

/-- What the host received for one access (00_scope.md R18): the window offset, the operation, the response, and the
data of a read (0 for a write). -/
structure BusRecord where
  off  : Nat
  op   : BusOp
  resp : BusResp
  data : Word
deriving DecidableEq, Repr

/-- Every element of 10_state.md R22 to R38 but the two ROMs, which R20 calls hardwired and R17 calls constants
(Machine.sboxRom, Machine.invSboxRom; log entry 2), and three fields of the model's own (rngDraws, inputs, busLog). -/
structure State where
  /-- GA, an operand of the field and table commands (R22). -/
  ga : Byte
  /-- GB, the second operand of GF_MUL (R22). -/
  gb : Byte
  /-- GR, the result of the field and table commands (R22). -/
  gr : Byte
  /-- KEY, the 128-bit secret (R23). -/
  key : Block
  /-- DIN, the data input (R24). -/
  din : Block
  /-- DOUT, the data output (R25). -/
  dout : Block
  /-- IV, the prefix MODE_START loads (R26). -/
  iv : Block
  /-- CHAIN, the chaining value of the message (R27). -/
  chain : Block
  /-- ST, the working matrix of the primitive commands (R28). -/
  st : AesState
  /-- RK[0..10], the round-key file (R29). -/
  rk : RoundKeys
  /-- RK_VALID (R30). -/
  rkValid : Bool
  /-- SBOX_READY: false exactly while the reset build runs (R32; 70_reset_and_hazards.md R311). -/
  sboxReady : Bool
  /-- MODE (R33). -/
  mode : Mode
  /-- CMD_LAST, the last command word accepted (R34). -/
  cmdLast : Word
  /-- PENDING: none, or the command issued and not yet completed (R35). -/
  pending : Option Word
  /-- DONE (R36). -/
  done : Bool
  /-- ERRCODE (R37). -/
  errcode : ErrCode
  /-- OVR, sticky (R38). -/
  ovr : Bool
  /-- The model's own: how many RngRead() requests were made (log entry 5). -/
  rngDraws : Nat
  /-- The model's own: the events still to come, oldest first; the core acts when there is none (log entry 3). -/
  inputs : List Event
  /-- The model's own: what the host has received, newest first (log entry 4). -/
  busLog : List BusRecord
deriving DecidableEq, Repr

/-- A Block of sixteen zero bytes. -/
def zeroBlock : Block := Vector.replicate 16 0

/-- A State matrix of sixteen zero bytes. -/
def zeroAesState : AesState := Vector.replicate 4 (Vector.replicate 4 0)

/-- The machine after the reset sequence: every element at the value of 10_state.md R42, the table build ended (R312).
The three fields of the model's own start at 0 and empty (log entries 3, 4, 5). -/
def State.reset : State where
  ga := 0
  gb := 0
  gr := 0
  key := zeroBlock
  din := zeroBlock
  dout := zeroBlock
  iv := zeroBlock
  chain := zeroBlock
  st := zeroAesState
  rk := Vector.replicate 11 zeroAesState
  rkValid := false
  sboxReady := true
  mode := .idle
  cmdLast := 0
  pending := none
  done := false
  errcode := .ok
  ovr := false
  rngDraws := 0
  inputs := []
  busLog := []

end Sys2Proof.Machine
end

