-- ==== Sys2Proof/Machine/Flags.lean ====
section
/-! DEFINITION. STATUS: the bits of its fields and its read value (10_state.md R39), the busy condition (20_memory.md R67),
and the codes of MODE and ERRCODE (10_state.md R33; 60_exceptions.md R280). -/

namespace Sys2Proof.Machine

/-- The encoding of MODE in STATUS (10_state.md R33). -/
def modeBits : Mode → BitVec 2
  | .idle => 0
  | .cbcEnc => 1
  | .cbcDec => 2
  | .ctr => 3

/-- The mode a MODE_START leaves, mode + 1 (45_mode_controller.md R223). -/
def startedMode : StartMode → Mode
  | .cbcEnc => .cbcEnc
  | .cbcDec => .cbcDec
  | .ctr => .ctr

/-- The value of ERRCODE (60_exceptions.md R280). -/
def errBits : ErrCode → BitVec 4
  | .ok => 0
  | .illegalCmd => 1
  | .unsupportedMode => 2
  | .sequenceErr => 3

/-- The reset build is running: SBOX_READY is 0 only during the build (10_state.md R32; 70_reset_and_hazards.md R311). -/
def building (s : State) : Bool := !s.sboxReady

/-- The core is busy when PENDING is not none or the reset build is running (20_memory.md R67; 10_state.md R39). -/
def busy (s : State) : Bool := s.pending.isSome || building s

/-- STATUS.ERR: ERRCODE is not 0 (10_state.md R39). -/
def errFlag (s : State) : Bool := decide (errBits s.errcode ≠ 0)

/-- A flag at a bit position of a Word. -/
def flagAt (b : Bool) (n : Nat) : Word := (BitVec.ofBool b).setWidth 32 <<< n

/-- The value a read of STATUS returns (10_state.md R39). -/
def statusWord (s : State) : Word :=
  ((errBits s.errcode).setWidth 32 <<< 8) ||| ((modeBits s.mode).setWidth 32 <<< 6) ||| flagAt s.ovr 5 |||
    flagAt s.rkValid 4 ||| flagAt s.sboxReady 3 ||| flagAt (errFlag s) 2 ||| flagAt s.done 1 ||| flagAt (busy s) 0

/-- A write to STATUS: bit 5 set clears OVR, all other bits are ignored (10_state.md R39; 20_memory.md R58). -/
def statusWrite (w : Word) (s : State) : State := if w.getLsbD 5 then { s with ovr := false } else s

end Sys2Proof.Machine
end

