-- ==== Sys2Proof/Machine/Ops.lean ====
section
/-! DEFINITION. The named operations every agent's step is made of: issue, completion and command errors (30_encoding.md
R91 to R93), the reset step and the end of the build (70_reset_and_hazards.md R310, R311), the register window (20_memory.md
R50 to R68), and what the core's own step finds to do. -/

namespace Sys2Proof.Machine

/-! ## Issue and completion -/

/-- Issue of the command word w, one event: CMD_LAST, PENDING, DONE, ERRCODE (30_encoding.md R91). -/
def issue (w : Word) (s : State) : State :=
  { s with cmdLast := w, pending := some w, done := false, errcode := .ok }

/-- The bookkeeping of every completion: PENDING <- none, DONE <- 1, ERRCODE <- code (30_encoding.md R93). -/
def completeWith (code : ErrCode) (s : State) : State :=
  { s with pending := none, done := true, errcode := code }

/-- A command that succeeds: the state its semantics rule writes, committed with code 0 (30_encoding.md R92, R93). -/
def commit (s : State) : Host.Outcome State Fault Refusal := .next (completeWith .ok s)

/-- raise CmdError(code): the completion records the code and commits nothing else (00_scope.md R12; 30_encoding.md R92,
R93; 60_exceptions.md R282). This is the whole of the core's exception entry, and there is no return from it
(60_exceptions.md R284, R285). -/
def raiseCmdError (code : ErrCode) (s : State) : Host.Outcome State Fault Refusal := .next (completeWith code s)

/-- RK[0..10] <- KeySchedule(decode(KEY)); RK_VALID <- 1 (42_key_schedule.md R154). -/
def expandKey (s : State) : State := { s with rk := keySchedule (decodeBlock s.key), rkValid := true }

/-! ## Reset -/

/-- The reset step: every element at its reset value but SBOX_READY, which is 0 while the build runs, so that BUSY reads 1;
a pending command is abandoned (70_reset_and_hazards.md R310). The events still to come, the log and the count of draws
belong to the outside and are kept (log entry 10). -/
def resetStep (s : State) : State :=
  { State.reset with sboxReady := false, rngDraws := s.rngDraws, inputs := s.inputs, busLog := s.busLog }

/-- The end of the table build: SBOX_READY becomes 1, and with it BUSY 0 (70_reset_and_hazards.md R311). -/
def endBuild (s : State) : State := { s with sboxReady := true }

/-! ## The register window -/

/-- The rows of the register map (20_memory.md R54), with the word number inside a register or table. -/
inductive Region where
  | cmd
  | status
  | gf
  | key (k : Fin 4)
  | din (k : Fin 4)
  | dout (k : Fin 4)
  | iv (k : Fin 4)
  | chain (k : Fin 4)
  | sbox (k : Fin 64)
  | invSbox (k : Fin 64)
  | rk (n : Fin 11) (k : Fin 4)
  | reserved
deriving DecidableEq, Repr

/-- The word of a 16-byte register that an offset names. -/
def wordIn16 (off : Nat) : Fin 4 := ⟨off % 16 / 4, by omega⟩

/-- The word of a 256-byte table that an offset names. -/
def wordIn256 (off : Nat) : Fin 64 := ⟨off % 256 / 4, by omega⟩

/-- The register map of 20_memory.md R54: which register the word at an offset belongs to. -/
def regionOf (off : Nat) : Region :=
  if off < 0x004 then .cmd
  else if off < 0x008 then .status
  else if off < 0x00C then .gf
  else if off < 0x010 then .reserved
  else if off < 0x020 then .key (wordIn16 off)
  else if off < 0x030 then .din (wordIn16 off)
  else if off < 0x040 then .dout (wordIn16 off)
  else if off < 0x050 then .iv (wordIn16 off)
  else if off < 0x060 then .chain (wordIn16 off)
  else if off < 0x100 then .reserved
  else if off < 0x200 then .sbox (wordIn256 off)
  else if off < 0x300 then .invSbox (wordIn256 off)
  else if h : off < 0x3B0 then .rk ⟨(off - 0x300) / 16, by omega⟩ (wordIn16 off)
  else .reserved

/-- The GF register: 0x00, GR, GB, GA from the top byte down (10_state.md R41). -/
def gfWord (s : State) : Word := packWord s.ga s.gb s.gr 0

/-- Word k of a table window: entries 4k..4k+3, or 0 while the build runs (20_memory.md R63; 70_reset_and_hazards.md R311). -/
def romWord (s : State) (entry : Byte → Byte) (k : Fin 64) : Word :=
  if building s then 0
  else
    packWord (entry (BitVec.ofNat 8 (4 * k.val))) (entry (BitVec.ofNat 8 (4 * k.val + 1)))
      (entry (BitVec.ofNat 8 (4 * k.val + 2))) (entry (BitVec.ofNat 8 (4 * k.val + 3)))

/-- The Word a 32-bit read at an offset returns (20_memory.md R55 to R64). Reads have no side effect (R65). -/
def windowRead (off : Nat) (s : State) : Word :=
  match regionOf off with
  | .cmd => s.cmdLast
  | .status => statusWord s
  | .gf => gfWord s
  | .key k => blockWord s.key k
  | .din k => blockWord s.din k
  | .dout k => blockWord s.dout k
  | .iv k => blockWord s.iv k
  | .chain k => blockWord s.chain k
  | .sbox k => romWord s sbox k
  | .invSbox k => romWord s invSbox k
  | .rk n k => blockWord (encodeState (s.rk.get n)) k
  | .reserved => 0

/-- The effect of a 32-bit write at an offset while the core is not busy (20_memory.md R55 to R64). -/
def windowWrite (off : Nat) (w : Word) (s : State) : State :=
  match regionOf off with
  | .cmd => issue w s
  | .status => statusWrite w s
  | .gf => { s with ga := wordByte w 0, gb := wordByte w 1 }
  | .key k => { s with key := setBlockWord s.key k w, rkValid := false }
  | .din k => { s with din := setBlockWord s.din k w }
  | .iv k => { s with iv := setBlockWord s.iv k w }
  | .dout _ | .chain _ | .sbox _ | .invSbox _ | .rk _ _ | .reserved => s

/-- Only aligned 32-bit accesses are accepted (20_memory.md R51). -/
def accepted (off size : Nat) : Bool := decide (size = 4) && decide (off % 4 = 0)

/-- A host read: the response and the data, SLVERR and 0 when refused (20_memory.md R52). -/
def busRead (off size : Nat) (s : State) : BusResp × Word :=
  if accepted off size then (.okay, windowRead off s) else (.slverr, 0)

/-- A host write: refused with SLVERR and no effect (20_memory.md R52), ignored with OVR set while busy (R67), else the
register's own effect. -/
def busWrite (off size : Nat) (w : Word) (s : State) : BusResp × State :=
  if accepted off size then
    if busy s then (.okay, { s with ovr := true }) else (.okay, windowWrite off w s)
  else (.slverr, s)

/-- The offset of a host address in the window of 4096 bytes at CORE_BASE, if it lies inside (20_memory.md R50). -/
def windowOffset (addr : Nat) : Option Nat :=
  if Config.coreBase ≤ addr ∧ addr < Config.coreBase + 4096 then some (addr - Config.coreBase) else none

/-- A response put on the host's log (00_scope.md R18; log entry 4). -/
def logged (r : BusRecord) (s : State) : State := { s with busLog := r :: s.busLog }

/-- An access that reached the window, with its response put on the host's log (00_scope.md R18). -/
def windowAccess (off size : Nat) (op : BusOp) (s : State) : State :=
  match op with
  | .read =>
    let r := busRead off size s
    logged ⟨off, op, r.1, r.2⟩ s
  | .write w =>
    let r := busWrite off size w s
    logged ⟨off, op, r.1, 0⟩ r.2

/-- One host access. Outside the window it "never reaches the core" (20_memory.md R52), and the model stops (log entry 6). -/
def hostAccess (a : Access) (s : State) : Host.Outcome State Fault Refusal :=
  match windowOffset a.addr with
  | none => .fault .outsideWindow
  | some off => .next (windowAccess off a.size a.op s)

/-! ## Whose turn it is, and what the core finds to do -/

/-- The state with other events still to come (log entry 3). -/
def setInputs (es : List Event) (s : State) : State := { s with inputs := es }

/-- The next event, and the state without it; when nothing is to come from outside, it is the core's turn (log entry 3). -/
def takeTurn (s : State) : Event × State :=
  match s.inputs with
  | [] => (.core, s)
  | e :: rest => (e, setInputs rest s)

/-- What the core's own step does. -/
inductive CoreWork where
  | build
  | idle
  | run (i : Instr)
  | reject (code : ErrCode)
deriving DecidableEq, Repr

/-- The core's step: it ends the build if one runs (70_reset_and_hazards.md R311), else completes the pending command, decoded
now (30_encoding.md R85, R92), else waits (46_control.md R271; log entry 13). -/
def coreWork (s : State) : CoreWork :=
  if building s then .build
  else
    match s.pending with
    | none => .idle
    | some w =>
      match decodeCmd w with
      | .ok i => .run i
      | .error code => .reject code

/-- The state in which the word w is the command the core completes next: w issued, no build running, the core's turn
(30_encoding.md R91; log entry 7). -/
def placeCommand (w : Word) (s : State) : State :=
  setInputs (.core :: s.inputs) { issue w s with sboxReady := true }

end Sys2Proof.Machine
end

