-- ==== Sys2Proof/Machine/Operands.lean ====
section
/-! DEFINITION. The operand forms a command word can carry (30_encoding.md R82): the round-key index of ADD_ROUND_KEY, and
the prefix that MODE_START takes from IV or from the random-bytes port. Every other operand is a named register (R82). -/

namespace Sys2Proof.Machine

/-- RK[idx] for the legal values 0..10 of idx, none above (30_encoding.md R82). -/
def roundKeyOperand (idx : BitVec 4) (s : State) : Option AesState :=
  if h : idx.toNat < 11 then some (s.rk.get ⟨idx.toNat, h⟩) else none

/-- RngRead(): the next draw of the free value (45_mode_controller.md R236). -/
def rngBlock (s : State) : Block := Config.rngDraw s.rngDraws

/-- One request counted, so that the next one is a new draw (45_mode_controller.md R236; log entry 5). -/
def countDraw (s : State) : State := { s with rngDraws := s.rngDraws + 1 }

/-- The prefix of MODE_START: RngRead() when rng = 1, else the IV register (45_mode_controller.md R223). -/
def startPrefix (rng : Bool) (s : State) : Block := if rng then rngBlock s else s.iv

/-- The state after the prefix was taken: a request is made only when rng = 1 (45_mode_controller.md R236). -/
def afterPrefix (rng : Bool) (s : State) : State := if rng then countDraw s else s

end Sys2Proof.Machine
end

