-- ==== Sys2Proof/Machine/CipherCommands.lean ====
section
/-! DEFINITION. KEY_EXPAND (42_key_schedule.md R154), ENCRYPT_BLOCK and DECRYPT_BLOCK (44_block_cipher.md R204, R205). -/

namespace Sys2Proof.Machine

/-- KEY_EXPAND: RK[0..10] <- KeySchedule(decode(KEY)); RK_VALID <- 1 (42_key_schedule.md R154). -/
def execKeyExpand (s : State) : Host.Outcome State Fault Refusal := commit (expandKey s)

/-- ENCRYPT_BLOCK: the key expanded, DOUT <- encryptBlock(DIN, KEY) (44_block_cipher.md R204). -/
def execEncryptBlock (s : State) : Host.Outcome State Fault Refusal :=
  commit { expandKey s with dout := encryptBlock s.din s.key }

/-- DECRYPT_BLOCK: the key expanded, DOUT <- decryptBlock(DIN, KEY) (44_block_cipher.md R205). -/
def execDecryptBlock (s : State) : Host.Outcome State Fault Refusal :=
  commit { expandKey s with dout := decryptBlock s.din s.key }

end Sys2Proof.Machine
end

