-- ==== Sys2Proof/Machine/ControlCommands.lean ====
section
/-! DEFINITION. NOP, the one control command (46_control.md R270). -/

namespace Sys2Proof.Machine

/-- NOP: the completion bookkeeping only (46_control.md R270). -/
def execNop (s : State) : Host.Outcome State Fault Refusal := commit s

end Sys2Proof.Machine
end

