-- ==== Sys2Proof/Machine/FieldCommands.lean ====
section
/-! DEFINITION. GF_MUL, GF_INV, SBOX_FWD, SBOX_INV (40_field_arithmetic.md R120 to R123). -/

namespace Sys2Proof.Machine

/-- GF_MUL: GR <- gmul(GA, GB) (40_field_arithmetic.md R120). -/
def execGfMul (s : State) : Host.Outcome State Fault Refusal := commit { s with gr := gmul s.ga s.gb }

/-- GF_INV: GR <- ginv(GA) (40_field_arithmetic.md R121). -/
def execGfInv (s : State) : Host.Outcome State Fault Refusal := commit { s with gr := ginv s.ga }

/-- SBOX_FWD: GR <- SBOX[GA] (40_field_arithmetic.md R122). -/
def execSboxFwd (s : State) : Host.Outcome State Fault Refusal := commit { s with gr := sbox s.ga }

/-- SBOX_INV: GR <- INV_SBOX[GA] (40_field_arithmetic.md R123). -/
def execSboxInv (s : State) : Host.Outcome State Fault Refusal := commit { s with gr := invSbox s.ga }

end Sys2Proof.Machine
end

