-- ==== Sys2Proof/Machine/ModeCommands.lean ====
section
/-! DEFINITION. MODE_START, MODE_BLOCK, MODE_END (45_mode_controller.md R223, R224, R226). -/

namespace Sys2Proof.Machine

/-- The writes of MODE_START with the prefix v: IV, CHAIN and DOUT <- v, the key expanded, MODE <- mode + 1
(45_mode_controller.md R223). -/
def beginMessage (mode : StartMode) (v : Block) (s : State) : State :=
  { expandKey s with iv := v, chain := v, dout := v, mode := startedMode mode }

/-- MODE_START mode[, RNG] (45_mode_controller.md R223). CBC_DEC with rng = 1 is ILLEGAL_CMD and makes no request; no word
decodes to it (log entry 11). -/
def execModeStart (mode : StartMode) (rng : Bool) (s : State) : Host.Outcome State Fault Refusal :=
  if mode = .cbcDec ∧ rng = true then raiseCmdError .illegalCmd s
  else commit (beginMessage mode (startPrefix rng s) (afterPrefix rng s))

/-- One CBC encryption block: c = encryptBlock(DIN ^ CHAIN, KEY) to CHAIN and DOUT (45_mode_controller.md R224). -/
def cbcEncStep (s : State) : State :=
  let c := encryptBlock (blockXor s.din s.chain) s.key
  { s with chain := c, dout := c }

/-- One CBC decryption block: DOUT <- decryptBlock(DIN, KEY) ^ CHAIN, CHAIN <- DIN (45_mode_controller.md R224). -/
def cbcDecStep (s : State) : State :=
  { s with dout := blockXor (decryptBlock s.din s.key) s.chain, chain := s.din }

/-- One CTR block: the counter incremented first, DOUT <- DIN ^ encryptBlock(n, KEY) (45_mode_controller.md R224, R225). -/
def ctrStep (s : State) : State :=
  let n := ctrInc s.chain
  { s with chain := n, dout := blockXor s.din (encryptBlock n s.key) }

/-- MODE_BLOCK: SEQUENCE_ERR in IDLE or with RK_VALID = 0, else one block of the message (45_mode_controller.md R224). -/
def execModeBlock (s : State) : Host.Outcome State Fault Refusal :=
  if s.mode = .idle then raiseCmdError .sequenceErr s
  else if s.rkValid = false then raiseCmdError .sequenceErr s
  else
    match s.mode with
    | .idle => raiseCmdError .sequenceErr s
    | .cbcEnc => commit (cbcEncStep s)
    | .cbcDec => commit (cbcDecStep s)
    | .ctr => commit (ctrStep s)

/-- MODE_END: MODE <- IDLE, CHAIN <- 0, legal in IDLE too (45_mode_controller.md R226). -/
def execModeEnd (s : State) : Host.Outcome State Fault Refusal := commit { s with mode := .idle, chain := zeroBlock }

end Sys2Proof.Machine
end

