-- ==== Sys2Proof/Machine/StateCommands.lean ====
section
/-! DEFINITION. The codec commands (41_state_codec.md R145, R146) and the round-transform commands on ST
(43_round_transforms.md R177 to R183). -/

namespace Sys2Proof.Machine

/-- LOAD_STATE: ST <- decode(DIN) (41_state_codec.md R145). -/
def execLoadState (s : State) : Host.Outcome State Fault Refusal := commit { s with st := decodeBlock s.din }

/-- STORE_STATE: DOUT <- encode(ST) (41_state_codec.md R146). -/
def execStoreState (s : State) : Host.Outcome State Fault Refusal := commit { s with dout := encodeState s.st }

/-- SUB_BYTES: ST <- SubBytes(ST) (43_round_transforms.md R177). -/
def execSubBytes (s : State) : Host.Outcome State Fault Refusal := commit { s with st := subBytes s.st }

/-- INV_SUB_BYTES: ST <- InvSubBytes(ST) (43_round_transforms.md R178). -/
def execInvSubBytes (s : State) : Host.Outcome State Fault Refusal := commit { s with st := invSubBytes s.st }

/-- SHIFT_ROWS: ST <- ShiftRows(ST) (43_round_transforms.md R179). -/
def execShiftRows (s : State) : Host.Outcome State Fault Refusal := commit { s with st := shiftRows s.st }

/-- INV_SHIFT_ROWS: ST <- InvShiftRows(ST) (43_round_transforms.md R180). -/
def execInvShiftRows (s : State) : Host.Outcome State Fault Refusal := commit { s with st := invShiftRows s.st }

/-- MIX_COLUMNS: ST <- MixColumns(ST) (43_round_transforms.md R181). -/
def execMixColumns (s : State) : Host.Outcome State Fault Refusal := commit { s with st := mixColumns s.st }

/-- INV_MIX_COLUMNS: ST <- InvMixColumns(ST) (43_round_transforms.md R182). -/
def execInvMixColumns (s : State) : Host.Outcome State Fault Refusal := commit { s with st := invMixColumns s.st }

/-- ADD_ROUND_KEY idx: SEQUENCE_ERR if RK_VALID = 0, else ST <- AddRoundKey(ST, RK[idx]) (43_round_transforms.md R183). An
idx above 10 is ILLEGAL_CMD; no word decodes to one (log entry 11). -/
def execAddRoundKey (idx : BitVec 4) (s : State) : Host.Outcome State Fault Refusal :=
  match roundKeyOperand idx s with
  | none => raiseCmdError .illegalCmd s
  | some k => if s.rkValid then commit { s with st := addRoundKey s.st k } else raiseCmdError .sequenceErr s

end Sys2Proof.Machine
end

