-- ==== Sys2Proof/Machine/Dispatch.lean ====
section
/-! DEFINITION. One arm per command: the semantics rule its opcode names (30_encoding.md R84, R92). -/

namespace Sys2Proof.Machine

def exec (i : Instr) (s : State) : Host.Outcome State Fault Refusal :=
  match i with
  | .nop => Sys2Proof.Machine.execNop s
  | .gfMul => Sys2Proof.Machine.execGfMul s
  | .gfInv => Sys2Proof.Machine.execGfInv s
  | .sboxFwd => Sys2Proof.Machine.execSboxFwd s
  | .sboxInv => Sys2Proof.Machine.execSboxInv s
  | .loadState => Sys2Proof.Machine.execLoadState s
  | .storeState => Sys2Proof.Machine.execStoreState s
  | .subBytes => Sys2Proof.Machine.execSubBytes s
  | .invSubBytes => Sys2Proof.Machine.execInvSubBytes s
  | .shiftRows => Sys2Proof.Machine.execShiftRows s
  | .invShiftRows => Sys2Proof.Machine.execInvShiftRows s
  | .mixColumns => Sys2Proof.Machine.execMixColumns s
  | .invMixColumns => Sys2Proof.Machine.execInvMixColumns s
  | .addRoundKey idx => Sys2Proof.Machine.execAddRoundKey idx s
  | .keyExpand => Sys2Proof.Machine.execKeyExpand s
  | .encryptBlock => Sys2Proof.Machine.execEncryptBlock s
  | .decryptBlock => Sys2Proof.Machine.execDecryptBlock s
  | .modeStart mode rng => Sys2Proof.Machine.execModeStart mode rng s
  | .modeBlock => Sys2Proof.Machine.execModeBlock s
  | .modeEnd => Sys2Proof.Machine.execModeEnd s

end Sys2Proof.Machine
end

