-- ==== Sys2Proof/Machine/CoreStep.lean ====
section
/-! DEFINITION. The core's own step (00_scope.md R17). -/

namespace Sys2Proof.Machine

/-- The core's own step: it ends the build (70_reset_and_hazards.md R311), completes the pending command (30_encoding.md R92),
or waits (46_control.md R271). -/
def coreStep (s : State) : Host.Outcome State Fault Refusal :=
  match coreWork s with
  | .build => .next (endBuild s)
  | .idle => .next s
  | .reject code => raiseCmdError code s
  | .run i => exec i s

end Sys2Proof.Machine
end

