-- ==== Sys2Proof/Machine/Step.lean ====
section
/-! DEFINITION. One step of the machine: the agent whose turn it is acts (00_scope.md R17). -/

namespace Sys2Proof.Machine

/-- One step: a host access (20_memory.md R66), the reset input (70_reset_and_hazards.md R310), or the core's own step. -/
def step (s : State) : Host.Outcome State Fault Refusal :=
  match takeTurn s with
  | (.host a, s') => hostAccess a s'
  | (.reset, s') => .next (resetStep s')
  | (.core, s') => coreStep s'

/-- The state whose very next step completes the command word w as the opcode table numbers its bits: w is issued and it
is the core's turn (30_encoding.md R91; log entry 7). -/
def State.withFetchWord (s : State) (nbits w : Nat) : State := placeCommand (BitVec.ofNat 32 (w % 2 ^ nbits)) s

end Sys2Proof.Machine
end

