-- ==== Sys2Proof/Machine/Message.lean ====
section
/-! DEFINITION. The message-level functions, the reference the driver and the core must meet (45_mode_controller.md R229 to
R236). They are functions of byte strings; the core itself sees only Blocks. -/

namespace Sys2Proof.Machine

/-- The mode argument: CBC, CTR, or any other name (45_mode_controller.md R229; log entry 14). -/
inductive CipherMode where
  | cbc
  | ctr
  | other
deriving DecidableEq, Repr

/-- The source's three errors (45_mode_controller.md R230; 60_exceptions.md R283). -/
inductive MsgError where
  | invalidLength
  | unsupportedMode
  | malformedCiphertext
deriving DecidableEq, Repr

/-- Piece j of a byte string: s[16j : min(16j + 16, len(s))] (45_mode_controller.md R233). -/
def piece (l : List Byte) (j : Nat) : List Byte := (l.drop (16 * j)).take 16

/-- The pieces of a byte string, 16 bytes at a time, the last one possibly shorter (45_mode_controller.md R231 to R233). -/
def pieces (l : List Byte) : List (List Byte) := (List.range ((l.length + 15) / 16)).map (piece l)

/-- The checks of encrypt in their order (45_mode_controller.md R230; 92_eei_decisions.md D32). -/
def encryptCheck (p key : List Byte) (mode : CipherMode) (iv : Option (List Byte)) : Option MsgError :=
  if key.length ≠ 16 then some .invalidLength
  else if iv.any (fun v => decide (v.length ≠ 16)) then some .invalidLength
  else if mode = .other then some .unsupportedMode
  else if mode = .cbc ∧ p.length % 16 ≠ 0 then some .invalidLength
  else none

/-- The checks of decrypt in their order (45_mode_controller.md R230; 92_eei_decisions.md D32). -/
def decryptCheck (c key : List Byte) (mode : CipherMode) : Option MsgError :=
  if key.length ≠ 16 then some .invalidLength
  else if mode = .other then some .unsupportedMode
  else if c.length < 16 then some .malformedCiphertext
  else if mode = .cbc ∧ (c.length - 16) % 16 ≠ 0 then some .malformedCiphertext
  else none

/-- The loop of CBC encryption over the pieces, from the chaining value prev (45_mode_controller.md R231). -/
def cbcEncrypt (key : Block) : Block → List (List Byte) → List Byte
  | _, [] => []
  | prev, x :: rest =>
    let c := encryptBlock (blockXor (blockOfBytes x) prev) key
    blockBytes c ++ cbcEncrypt key c rest

/-- The loop of CBC decryption, chained by the ciphertext (45_mode_controller.md R232). -/
def cbcDecrypt (key : Block) : Block → List (List Byte) → List Byte
  | _, [] => []
  | prev, x :: rest =>
    let c := blockOfBytes x
    blockBytes (blockXor (decryptBlock c key) prev) ++ cbcDecrypt key c rest

/-- The loop of CTR: the counter is incremented before it is encrypted, and a short piece uses the first bytes of its
keystream block (45_mode_controller.md R233, R225; 90_conflicts.md C1). -/
def ctrPieces (key : Block) : Block → List (List Byte) → List Byte
  | _, [] => []
  | ctr, x :: rest =>
    let n := ctrInc ctr
    List.zipWith (· ^^^ ·) x (blockBytes (encryptBlock n key)) ++ ctrPieces key n rest

/-- ctr_stream(x, key, ctr0) (45_mode_controller.md R233). -/
def ctrStream (x : List Byte) (key ctr0 : Block) : List Byte := ctrPieces key ctr0 (pieces x)

/-- The prefix of encrypt: iv if present, else the Block that RngRead() returns (45_mode_controller.md R231, R233;
92_eei_decisions.md D41). -/
def messagePrefix (iv : Option (List Byte)) (draw : Block) : Block := (iv.map blockOfBytes).getD draw

/-- encrypt(p, key, mode, iv?) with the answer of the one RngRead() as an argument (45_mode_controller.md R230, R231, R233;
log entry 14). -/
def encryptMessage (p key : List Byte) (mode : CipherMode) (iv : Option (List Byte)) (draw : Block) :
    Except MsgError (List Byte) :=
  match encryptCheck p key mode iv with
  | some e => .error e
  | none =>
    let v := messagePrefix iv draw
    let k := blockOfBytes key
    match mode with
    | .cbc => .ok (blockBytes v ++ cbcEncrypt k v (pieces p))
    | .ctr | .other => .ok (blockBytes v ++ ctrStream p k v)

/-- decrypt(c, key, mode) (45_mode_controller.md R230, R232, R233). -/
def decryptMessage (c key : List Byte) (mode : CipherMode) : Except MsgError (List Byte) :=
  match decryptCheck c key mode with
  | some e => .error e
  | none =>
    let v := blockOfBytes (c.take 16)
    let k := blockOfBytes key
    match mode with
    | .cbc => .ok (cbcDecrypt k v (pieces (c.drop 16)))
    | .ctr | .other => .ok (ctrStream (c.drop 16) k v)

end Sys2Proof.Machine
end

