-- ==== Sys2Proof/Machine/HostProgram.lean ====
section
/-! DEFINITION. Host programs: the statements and pseudo-instructions of 30_encoding.md R89 and R90, the host that runs their
expansion beside the core, and the driver of 45_mode_controller.md R238 as a host program. -/

namespace Sys2Proof.Machine

/-- A statement of a host program (30_encoding.md R89, R90). -/
inductive HostStmt where
  | wr (off : Nat) (w : Word)
  | rd (off : Nat)
  | wrb (off : Nat) (b : Block)
  | rdb (off : Nat)
  | issue (w : Word)
  | wait
  | exec (w : Word)
deriving DecidableEq, Repr

/-- What a statement expands to (30_encoding.md R90): WR and RD themselves, the loop of WAIT, and the joining of the last four
results that ends RDB. -/
inductive HostOp where
  | wr (off : Nat) (w : Word)
  | rd (off : Nat)
  | waitLoop
  | join
deriving DecidableEq, Repr

/-- The expansion of a statement (30_encoding.md R89, R90). -/
def HostStmt.expand : HostStmt → List HostOp
  | .wr off w => [.wr off w]
  | .rd off => [.rd off]
  | .wrb off b => (List.finRange 4).map fun k => .wr (off + 4 * k.val) (blockWord b k)
  | .rdb off => ((List.finRange 4).map fun k => .rd (off + 4 * k.val)) ++ [.join]
  | .issue w => [.wr 0x000 w]
  | .wait => [.waitLoop]
  | .exec w => [.wr 0x000 w, .waitLoop]

/-- MemWrite(off, 4, w) (00_scope.md R11). -/
def memWrite (off : Nat) (w : Word) : Event := .host ⟨Config.coreBase + off, 4, .write w⟩

/-- MemRead(off, 4) (00_scope.md R11). -/
def memRead (off : Nat) : Event := .host ⟨Config.coreBase + off, 4, .read⟩

/-- Four Words joined into a Block: byte i is byte i mod 4 of Word i / 4 (20_memory.md R55; 30_encoding.md R90). -/
def joinWords (ws : List Word) : Block := mkBlock fun i => wordByte (ws.getD (i.val / 4) 0) (i.val % 4)

/-! ## The host and the core side by side -/

/-- A host running a program beside the core. The host's part is no state of the core (10_state.md R21): what is still to be
done, the result of every RD, newest first, and the Blocks that RDB joined, oldest first. -/
structure HostRun where
  todo   : List HostOp
  words  : List Word
  blocks : List Block
  core   : State
deriving DecidableEq, Repr

/-- Who acts next (00_scope.md R17): the host, the core, or the reset input. -/
inductive Agent where
  | host
  | core
  | reset
deriving DecidableEq, Repr

/-- One event is the machine's next step; f says what the run is in the state after it. -/
def HostRun.event (e : Event) (f : State → HostRun) (r : HostRun) : Host.Outcome HostRun Fault Refusal :=
  match step (setInputs [e] r.core) with
  | .next t => .next (f t)
  | .fault x => .fault x
  | .refused x => .refused x

/-- MemRead(off, 4): the host receives the word, records it, and goes on with what go says of it (30_encoding.md R89). -/
def HostRun.read (off : Nat) (go : Word → List HostOp) (r : HostRun) : Host.Outcome HostRun Fault Refusal :=
  let w := (busRead off 4 r.core).2
  r.event (memRead off) fun t => { r with todo := go w, words := w :: r.words, core := t }

/-- The host's turn, one operation. WAIT reads STATUS and loops while bit 0 of the result is 1 (30_encoding.md R90); a host with
nothing left to do does nothing. -/
def HostRun.hostTurn (r : HostRun) : Host.Outcome HostRun Fault Refusal :=
  match r.todo with
  | [] => .next r
  | .wr off w :: rest => r.event (memWrite off w) fun t => { r with todo := rest, core := t }
  | .rd off :: rest => r.read off fun _ => rest
  | .waitLoop :: rest => r.read 0x004 fun w => if w.getLsbD 0 then .waitLoop :: rest else rest
  | .join :: rest => .next { r with todo := rest, blocks := r.blocks ++ [joinWords (r.words.take 4).reverse] }

/-- One agent's turn: the completion of a command may fall between any two accesses of the host (30_encoding.md R94). -/
def HostRun.turn (a : Agent) (r : HostRun) : Host.Outcome HostRun Fault Refusal :=
  match a with
  | .host => r.hostTurn
  | .core => r.event .core fun t => { r with core := t }
  | .reset => r.event .reset fun t => { r with core := t }

/-- A schedule: whose turn it is, turn after turn (log entry 15). -/
def HostRun.run : List Agent → HostRun → Host.Outcome HostRun Fault Refusal
  | [], r => .next r
  | a :: rest, r =>
    match r.turn a with
    | .next r' => r'.run rest
    | .fault x => .fault x
    | .refused x => .refused x

/-- A host program about to start, in program order (20_memory.md R69), on a core with no other event to come. -/
def startProgram (prog : List HostStmt) (s : State) : HostRun :=
  { todo := prog.flatMap HostStmt.expand, words := [], blocks := [], core := setInputs [] s }

/-! ## The driver -/

/-- Whether a message is encrypted or decrypted (45_mode_controller.md R238). -/
inductive Direction where
  | enc
  | dec
deriving DecidableEq, Repr

/-- hm of the driver: CBC_ENC, CBC_DEC, or CTR for both directions (45_mode_controller.md R238). -/
def driverMode (mode : CipherMode) (dir : Direction) : StartMode :=
  match mode, dir with
  | .cbc, .enc => .cbcEnc
  | .cbc, .dec => .cbcDec
  | .ctr, _ | .other, _ => .ctr

/-- x || pad(16 - len(x)): a piece filled up with any values (45_mode_controller.md R239; log entry 15). -/
def padPiece (fill : Block) (x : List Byte) : Block := mkBlock fun i => x.getD i.val (fill.get i)

/-- The statements of the driver's loop, from piece number j on (45_mode_controller.md R238). -/
def driverLoop (fill : Nat → Block) : Nat → List (List Byte) → List HostStmt
  | _, [] => [.exec (encode .modeEnd)]
  | j, x :: rest =>
    .wrb 0x020 (padPiece (fill j) x) :: .exec (encode .modeBlock) :: .rdb 0x030 :: driverLoop fill (j + 1) rest

/-- The driver's host program once the checks have passed (45_mode_controller.md R238). The argument fill is the pad bytes, which
are free (log entry 15). -/
def driverProgram (data : List Byte) (key : Block) (dir : Direction) (mode : CipherMode) (pre : Option Block)
    (fill : Nat → Block) : List HostStmt :=
  let hm := driverMode mode dir
  let start : List HostStmt :=
    match pre with
    | some v => [.wrb 0x040 v, .exec (encode (.modeStart hm false))]
    | none => [.exec (encode (.modeStart hm true))]
  .wrb 0x010 key :: start ++ (if dir = .enc then [.rdb 0x030] else []) ++ driverLoop fill 0 (pieces data)

/-- The driver's program for encrypt(p, key, mode, iv?), or the error of its checks (45_mode_controller.md R230, R238). -/
def driveEncrypt (p key : List Byte) (mode : CipherMode) (iv : Option (List Byte)) (fill : Nat → Block) :
    Except MsgError (List HostStmt) :=
  match encryptCheck p key mode iv with
  | some e => .error e
  | none => .ok (driverProgram p (blockOfBytes key) .enc mode (iv.map blockOfBytes) fill)

/-- The driver's program for decrypt(c, key, mode); the prefix is c[0:16] (45_mode_controller.md R230, R238). -/
def driveDecrypt (c key : List Byte) (mode : CipherMode) (fill : Nat → Block) :
    Except MsgError (List HostStmt) :=
  match decryptCheck c key mode with
  | some e => .error e
  | none =>
    .ok (driverProgram (c.drop 16) (blockOfBytes key) .dec mode (some (blockOfBytes (c.take 16))) fill)

/-- What the driver returns, from the Blocks its RDB statements read: the prefix when it encrypts, then
(RDB 0x030)[0 : len(x)] for each piece x of the data (45_mode_controller.md R238). -/
def driverOutput (dir : Direction) (data : List Byte) (blocks : List Block) : List Byte :=
  let outs (bs : List Block) := (List.zipWith (fun x b => (blockBytes b).take x.length) (pieces data) bs).flatten
  match dir with
  | .enc => (blocks.take 1).flatMap blockBytes ++ outs (blocks.drop 1)
  | .dec => outs blocks

end Sys2Proof.Machine
end

