-- ==== Sys2Proof/Safety.lean ====
section
/-! DEFINITION. The invariant of every run (10_state.md R46; 70_reset_and_hazards.md R311; 20_memory.md R68), the commands
grouped by what they may write, and the words the statements use. -/

namespace Sys2Proof.Machine

/-- RK_VALID = 1 means that RK is the expansion of the current KEY (10_state.md R46). -/
def RkInv (s : State) : Prop := s.rkValid = true → s.rk = keySchedule (decodeBlock s.key)

/-- While a command is pending it is the last one accepted, DONE is 0 and ERRCODE is 0 (30_encoding.md R91; 20_memory.md
R68). -/
def PendingInv (s : State) : Prop :=
  ∀ w, s.pending = some w → s.cmdLast = w ∧ s.done = false ∧ s.errcode = .ok

/-- No message, no chaining value: CHAIN is 0 in IDLE (45_mode_controller.md R226, R227). -/
def IdleInv (s : State) : Prop := s.mode = .idle → s.chain = zeroBlock

/-- While the reset build runs, every element is at its reset value but SBOX_READY and OVR (70_reset_and_hazards.md R310,
R311). -/
def BuildInv (s : State) : Prop :=
  s.sboxReady = false →
    s = { State.reset with
          sboxReady := false, ovr := s.ovr, rngDraws := s.rngDraws, inputs := s.inputs, busLog := s.busLog }

/-- An error code is shown only by a completed command (10_state.md R36, R37). -/
def ErrInv (s : State) : Prop := s.errcode ≠ .ok → s.done = true

/-- The invariant that every step keeps. -/
structure Inv (s : State) : Prop where
  rk      : RkInv s
  pending : PendingInv s
  idle    : IdleInv s
  build   : BuildInv s
  err     : ErrInv s

/-- The host may use the core: no command pending and no build running (20_memory.md R67). -/
def Ready (s : State) : Prop := s.pending = none ∧ s.sboxReady = true

/-- The core acts next: its turn is scheduled, or nothing else is (log entry 3). -/
def CoreTurn (s : State) : Prop := s.inputs = [] ∨ s.inputs.head? = some .core

/-- The state a command leaves that writes nothing but what u already shows: u with the completion bookkeeping and code 0
(30_encoding.md R93), stated field by field. -/
def doneWith (u : State) : State := { u with pending := none, done := true, errcode := .ok }

/-- The state a failing command leaves: only PENDING, DONE and ERRCODE differ (30_encoding.md R93). -/
def failedWith (code : ErrCode) (s : State) : State := { s with pending := none, done := true, errcode := code }

/-- The code a well-formed command raises, ok if none (60_exceptions.md R280). -/
def raisedCode (i : Instr) (s : State) : ErrCode :=
  match i with
  | .addRoundKey _ => if s.rkValid then .ok else .sequenceErr
  | .modeBlock => if s.mode = .idle ∨ s.rkValid = false then .sequenceErr else .ok
  | .nop | .gfMul | .gfInv | .sboxFwd | .sboxInv | .loadState | .storeState | .subBytes | .invSubBytes | .shiftRows
  | .invShiftRows | .mixColumns | .invMixColumns | .keyExpand | .encryptBlock | .decryptBlock | .modeStart _ _
  | .modeEnd => .ok

/-- The code the completion of the word w records: the decode error, else the code the command raises (30_encoding.md R92,
R93). -/
def completionCode (w : Word) (s : State) : ErrCode :=
  match decodeCmd w with
  | .error code => code
  | .ok i => raisedCode i s

/-- The offset of a word of the window: aligned and inside (20_memory.md R50, R51). -/
def WordOffset (off : Nat) : Prop := off < 0x1000 ∧ off % 4 = 0

/-- The commands that write DOUT (10_state.md R25). -/
def writesDout : Instr → Bool
  | .storeState | .encryptBlock | .decryptBlock | .modeStart _ _ | .modeBlock => true
  | .nop | .gfMul | .gfInv | .sboxFwd | .sboxInv | .loadState | .subBytes | .invSubBytes | .shiftRows | .invShiftRows
  | .mixColumns | .invMixColumns | .addRoundKey _ | .keyExpand | .modeEnd => false

/-- The commands that write GR (10_state.md R22). -/
def writesGr : Instr → Bool
  | .gfMul | .gfInv | .sboxFwd | .sboxInv => true
  | .nop | .loadState | .storeState | .subBytes | .invSubBytes | .shiftRows | .invShiftRows | .mixColumns
  | .invMixColumns | .addRoundKey _ | .keyExpand | .encryptBlock | .decryptBlock | .modeStart _ _ | .modeBlock
  | .modeEnd => false

/-- The commands that write ST (10_state.md R28). -/
def writesSt : Instr → Bool
  | .loadState | .subBytes | .invSubBytes | .shiftRows | .invShiftRows | .mixColumns | .invMixColumns
  | .addRoundKey _ => true
  | .nop | .gfMul | .gfInv | .sboxFwd | .sboxInv | .storeState | .keyExpand | .encryptBlock | .decryptBlock
  | .modeStart _ _ | .modeBlock | .modeEnd => false

/-- The commands that write RK and RK_VALID (10_state.md R29, R30). -/
def writesRk : Instr → Bool
  | .keyExpand | .encryptBlock | .decryptBlock | .modeStart _ _ => true
  | .nop | .gfMul | .gfInv | .sboxFwd | .sboxInv | .loadState | .storeState | .subBytes | .invSubBytes | .shiftRows
  | .invShiftRows | .mixColumns | .invMixColumns | .addRoundKey _ | .modeBlock | .modeEnd => false

/-- The commands that write CHAIN (10_state.md R27). -/
def writesChain : Instr → Bool
  | .modeStart _ _ | .modeBlock | .modeEnd => true
  | .nop | .gfMul | .gfInv | .sboxFwd | .sboxInv | .loadState | .storeState | .subBytes | .invSubBytes | .shiftRows
  | .invShiftRows | .mixColumns | .invMixColumns | .addRoundKey _ | .keyExpand | .encryptBlock | .decryptBlock => false

/-- The primitive commands that encrypt a block (44_block_cipher.md R207). -/
def encryptSequence : List Instr :=
  [.keyExpand, .loadState, .addRoundKey 0] ++
  ([1, 2, 3, 4, 5, 6, 7, 8, 9] : List (BitVec 4)).flatMap (fun n => [.subBytes, .shiftRows, .mixColumns, .addRoundKey n]) ++
  [.subBytes, .shiftRows, .addRoundKey 10, .storeState]

/-- The mirror sequence that decrypts a block (44_block_cipher.md R207; 95_test_vectors.md V-BC-6). -/
def decryptSequence : List Instr :=
  [.keyExpand, .loadState, .addRoundKey 10, .invShiftRows, .invSubBytes] ++
  ([9, 8, 7, 6, 5, 4, 3, 2, 1] : List (BitVec 4)).flatMap
    (fun n => [.addRoundKey n, .invMixColumns, .invShiftRows, .invSubBytes]) ++
  [.addRoundKey 0, .storeState]

/-- A host program that executes commands one after another, EXEC by EXEC (30_encoding.md R90). -/
def execProgram (is : List Instr) : List HostStmt := is.map fun i => .exec (encode i)

/-- A host program never stops with a fault or a refusal, ends with what P says, and can at every moment still be brought to its
end: over every schedule of the host and the core, the reset input staying quiet (30_encoding.md R94; log entry 15). -/
def HostRun.EndsWith (P : HostRun → Prop) (r : HostRun) : Prop :=
  ∀ sched : List Agent, .reset ∉ sched →
    ∃ r', r.run sched = .next r' ∧ (r'.todo = [] → P r') ∧
      ∃ (more : List Agent) (e : HostRun), .reset ∉ more ∧ r'.run more = .next e ∧ e.todo = []

/-- No read of STATUS on the host's log shows ERR (10_state.md R39). -/
def NoErrShown (log : List BusRecord) : Prop :=
  ∀ r ∈ log, r.op = .read → r.off = 0x004 → r.data.getLsbD 2 = false

end Sys2Proof.Machine
end

