-- ==== Sys2Proof/Certificates/Slice0/Obligations.lean ====
section
/-! DEFINITION. The statements about this model, for the provers. -/

open Sys2Proof Sys2Proof.Machine

/-! ## Encoding -/

/-- Decoding the encoding of a well-formed command gives the command back, for every command and every operand value
(30_encoding.md R80, R82, R84, R85, R88). -/
def Obligations.DecodeOfEncodeIsTheCommand : Prop :=
  ∀ i : Instr, i.wf = true → decodeCmd (encode i) = .ok i

/-- A word that decodes is the one encoding of the command it decodes to, and that command is well formed (30_encoding.md
R81, R85, R87). -/
def Obligations.DecodedWordIsItsEncoding : Prop :=
  ∀ (w : Word) (i : Instr), decodeCmd w = .ok i → i.wf = true ∧ encode i = w

/-- The two decode errors: UNSUPPORTED_MODE for exactly the two words with mode field 3 and neither w[11] nor RSV set,
ILLEGAL_CMD for every other word that is no command's encoding, and no other code (30_encoding.md R85, R86; 60_exceptions.md
R280, R281). -/
def Obligations.DecodeErrorsByWord : Prop :=
  ∀ w : Word,
    (decodeCmd w = .error .unsupportedMode ↔ w = 0x00000330 ∨ w = 0x00000730) ∧
    (decodeCmd w = .error .illegalCmd ↔
      w ≠ 0x00000330 ∧ w ≠ 0x00000730 ∧ ∀ i : Instr, i.wf = true → encode i ≠ w) ∧
    (∀ code, decodeCmd w = .error code → code = .unsupportedMode ∨ code = .illegalCmd)

/-- The opcodes 0x05-0x0F, 0x19-0x1F, 0x23-0x2F and 0x33-0xFF are reserved: no word with such an OP is a command
(30_encoding.md R86). -/
def Obligations.ReservedOpcodesAreIllegal : Prop :=
  ∀ w : Word,
    (0x05 ≤ (cmdOp w).toNat ∧ (cmdOp w).toNat ≤ 0x0F ∨ 0x19 ≤ (cmdOp w).toNat ∧ (cmdOp w).toNat ≤ 0x1F ∨
      0x23 ≤ (cmdOp w).toNat ∧ (cmdOp w).toNat ≤ 0x2F ∨ 0x33 ≤ (cmdOp w).toNat) →
    decodeCmd w = .error .illegalCmd

/-- The example words of 30_encoding.md R96 decode, or fail to decode, as its table says, and one word more of each family by
the opcode map of R84. -/
def Obligations.SpecExampleWordsDecode : Prop :=
  decodeCmd 0x00000000 = .ok .nop ∧ decodeCmd 0x00000001 = .ok .gfMul ∧
  decodeCmd 0x00000018 = .ok (.addRoundKey 0) ∧ decodeCmd 0x00000A18 = .ok (.addRoundKey 10) ∧
  decodeCmd 0x00000020 = .ok .keyExpand ∧ decodeCmd 0x00000030 = .ok (.modeStart .cbcEnc false) ∧
  decodeCmd 0x00000130 = .ok (.modeStart .cbcDec false) ∧ decodeCmd 0x00000230 = .ok (.modeStart .ctr false) ∧
  decodeCmd 0x00000630 = .ok (.modeStart .ctr true) ∧ decodeCmd 0x00000430 = .ok (.modeStart .cbcEnc true) ∧
  decodeCmd 0x00000330 = .error .unsupportedMode ∧ decodeCmd 0x00000530 = .error .illegalCmd ∧
  decodeCmd 0x00000B18 = .error .illegalCmd ∧ decodeCmd 0x00001000 = .error .illegalCmd ∧
  decodeCmd 0x00000010 = .ok .loadState ∧ decodeCmd 0x00000016 = .ok .mixColumns ∧
  decodeCmd 0x00000021 = .ok .encryptBlock ∧ decodeCmd 0x00000031 = .ok .modeBlock

/-! ## The lifecycle of a command -/

/-- When a command is pending that decodes to i and it is the core's turn, the step is exec of i, with the turn used up
(30_encoding.md R92; log entry 3); when no command is pending and no build runs, the core is idle and keeps every element
(46_control.md R271; 60_exceptions.md R296; log entries 3, 13). -/
def Obligations.StepRunsTheDecodedCommand : Prop :=
  (∀ (s : State) (w : Word) (i : Instr), s.sboxReady = true → s.pending = some w → decodeCmd w = .ok i → CoreTurn s →
    step s = exec i (setInputs s.inputs.tail s)) ∧
  (∀ s : State, s.sboxReady = true → s.pending = none → CoreTurn s →
    step s = .next (setInputs s.inputs.tail s))

/-- A pending word that does not decode completes, on the core's turn, with its code and changes nothing else (30_encoding.md R86,
R92; log entry 3). -/
def Obligations.IllegalWordCompletesWithItsCode : Prop :=
  ∀ (s : State) (w : Word) (code : ErrCode), s.sboxReady = true → s.pending = some w → decodeCmd w = .error code →
    CoreTurn s → step s = .next (failedWith code (setInputs s.inputs.tail s))

/-- The completion of any pending word writes PENDING <- none, DONE <- 1 and ERRCODE <- code: the decode error or the code the
command raises, 0 on success; and one with a code changes nothing else (30_encoding.md R93). The completion is the core's
turn (log entry 3). -/
def Obligations.CompletionBookkeepingIsPrecise : Prop :=
  ∀ (s : State) (w : Word), s.sboxReady = true → s.pending = some w → CoreTurn s →
    ∃ t, step s = .next t ∧ t.pending = none ∧ t.done = true ∧ t.errcode = completionCode w s ∧
      (completionCode w s ≠ .ok → t = failedWith (completionCode w s) (setInputs s.inputs.tail s))

/-- SEQUENCE_ERR is the only code a well-formed command raises, and it is raised exactly by ADD_ROUND_KEY with RK_VALID = 0
and by MODE_BLOCK in IDLE or with RK_VALID = 0 (60_exceptions.md R280). -/
def Obligations.SequenceErrorExactlyWhen : Prop :=
  ∀ (i : Instr) (s t : State), i.wf = true → exec i s = .next t →
    (t.errcode = .ok ∨ t.errcode = .sequenceErr) ∧
    (t.errcode = .sequenceErr ↔
      ((∃ idx, i = .addRoundKey idx) ∧ s.rkValid = false) ∨ (i = .modeBlock ∧ (s.mode = .idle ∨ s.rkValid = false)))

/-- Issue (30_encoding.md R91): a write to CMD while the core is not busy is one event that writes CMD_LAST, PENDING, DONE and
ERRCODE; while it is busy, the write is ignored and sets OVR; and BUSY stays 1 over every host access until the completion. -/
def Obligations.CmdWriteIssues : Prop :=
  (∀ (s : State) (w : Word) (rest : List Event), busy s = false → s.inputs = memWrite 0x000 w :: rest →
    ∃ t, step s = .next t ∧ busy t = true ∧
      t = { s with cmdLast := w, pending := some w, done := false, errcode := .ok, inputs := rest,
                   busLog := ⟨0x000, .write w, .okay, 0⟩ :: s.busLog }) ∧
  (∀ (s : State) (w : Word) (rest : List Event), busy s = true → s.inputs = memWrite 0x000 w :: rest →
    step s = .next { s with ovr := true, inputs := rest, busLog := ⟨0x000, .write w, .okay, 0⟩ :: s.busLog }) ∧
  (∀ (s t : State) (w : Word) (a : Access) (rest : List Event), s.pending = some w → s.inputs = .host a :: rest →
    step s = .next t → t.pending = some w ∧ (statusWord t).getLsbD 0 = true)

/-! ## The register window -/

/-- Writes while busy (20_memory.md R67): an accepted write to any offset is ignored, answers OKAY and sets OVR, and the core is
busy when PENDING is not none or the reset build runs. -/
def Obligations.BusyWriteIsIgnoredAndSetsOvr : Prop :=
  (∀ s : State, busy s = true ↔ s.pending ≠ none ∨ s.sboxReady = false) ∧
  (∀ (s : State) (off : Nat) (w : Word) (rest : List Event), WordOffset off → busy s = true →
    s.inputs = memWrite off w :: rest →
    step s = .next { s with ovr := true, inputs := rest, busLog := ⟨off, .write w, .okay, 0⟩ :: s.busLog })

/-- A read of a word of the window changes nothing but the host's log, and answers OKAY with the word's value
(20_memory.md R65, R66); at CMD that value is CMD_LAST (20_memory.md R57; 10_state.md R34, R40). -/
def Obligations.ReadHasNoSideEffect : Prop :=
  (∀ (s : State) (off : Nat) (rest : List Event), WordOffset off → s.inputs = memRead off :: rest →
    step s = .next { s with inputs := rest, busLog := ⟨off, .read, .okay, windowRead off s⟩ :: s.busLog }) ∧
  (∀ s : State, windowRead 0x000 s = s.cmdLast)

/-- While a command is pending, a read of STATUS shows BUSY = 1, DONE = 0, ERR = 0 and ERRCODE = 0 (20_memory.md R68). The
invariant is a premise: it rules out states in which no command was ever issued. -/
def Obligations.StatusWhileBusy : Prop :=
  ∀ (s : State) (w : Word), Inv s → s.pending = some w →
    (windowRead 0x004 s).getLsbD 0 = true ∧ (windowRead 0x004 s).getLsbD 1 = false ∧
    (windowRead 0x004 s).getLsbD 2 = false ∧ (windowRead 0x004 s).extractLsb' 8 4 = 0

/-- Byte, halfword, wider and misaligned accesses that start inside the window get SLVERR: a read returns 0, and neither changes
any element, OVR included (20_memory.md R51, R52; 60_exceptions.md R287). One that runs past the end of the window, such as
4 bytes at 0xFFE, counts as one of them: the model's reading (log entry 9). -/
def Obligations.RefusedAccessGetsSlverr : Prop :=
  ∀ (s : State) (off size : Nat) (op : BusOp) (rest : List Event), off < 0x1000 → ¬(size = 4 ∧ off % 4 = 0) →
    s.inputs = .host ⟨Config.coreBase + off, size, op⟩ :: rest →
    step s = .next { s with inputs := rest, busLog := ⟨off, op, .slverr, 0⟩ :: s.busLog }

/-- An access outside the window never reaches the core; the model stops there with a named fault, its own choice
(20_memory.md R52; log entry 6). -/
def Obligations.OutsideWindowStops : Prop :=
  ∀ (s : State) (a : Access) (rest : List Event),
    (a.addr < Config.coreBase ∨ Config.coreBase + 0x1000 ≤ a.addr) → s.inputs = .host a :: rest →
    step s = .fault .outsideWindow

/-- Reserved offsets read as 0 and ignore writes with OKAY, a write to one while busy still sets OVR, and the reserved bits of
STATUS and GF read as 0 and ignore writes (20_memory.md R62). -/
def Obligations.ReservedOffsetsReadZero : Prop :=
  (∀ (s : State) (off : Nat) (w : Word), off % 4 = 0 →
    (off = 0x00C ∨ 0x060 ≤ off ∧ off ≤ 0x0FF ∨ 0x3B0 ≤ off ∧ off ≤ 0xFFF) →
    busRead off 4 s = (.okay, 0) ∧ (busy s = false → busWrite off 4 w s = (.okay, s)) ∧
    (busy s = true → busWrite off 4 w s = (.okay, { s with ovr := true }))) ∧
  (∀ (s : State) (n : Nat), 12 ≤ n → (windowRead 0x004 s).getLsbD n = false) ∧
  (∀ (s : State) (n : Nat), 24 ≤ n → (windowRead 0x008 s).getLsbD n = false) ∧
  (∀ (s : State) (w : Word), windowWrite 0x004 w s = windowWrite 0x004 (w &&& 0x00000FFF) s) ∧
  (∀ (s : State) (w : Word), windowWrite 0x008 w s = windowWrite 0x008 (w &&& 0x00FFFFFF) s)

/-- Block registers (20_memory.md R55): byte j of the word read at offset b + 4k is byte 4k + j of the Block, and a write
there replaces exactly those four bytes; a write to DOUT or CHAIN answers OKAY and changes nothing (20_memory.md R61). -/
def Obligations.BlockRegistersByWord : Prop :=
  (∀ (s : State) (k j : Fin 4),
    wordByte (windowRead (0x010 + 4 * k.val) s) j.val = s.key.get ⟨4 * k.val + j.val, by omega⟩ ∧
    wordByte (windowRead (0x020 + 4 * k.val) s) j.val = s.din.get ⟨4 * k.val + j.val, by omega⟩ ∧
    wordByte (windowRead (0x030 + 4 * k.val) s) j.val = s.dout.get ⟨4 * k.val + j.val, by omega⟩ ∧
    wordByte (windowRead (0x040 + 4 * k.val) s) j.val = s.iv.get ⟨4 * k.val + j.val, by omega⟩ ∧
    wordByte (windowRead (0x050 + 4 * k.val) s) j.val = s.chain.get ⟨4 * k.val + j.val, by omega⟩) ∧
  (∀ (s : State) (k : Fin 4) (w : Word), busy s = false →
    (∃ b, busWrite (0x010 + 4 * k.val) 4 w s = (.okay, { s with key := b, rkValid := false }) ∧
      ∀ i : Fin 16, b.get i = if i.val / 4 = k.val then w.extractLsb' (8 * (i.val % 4)) 8 else s.key.get i) ∧
    (∃ b, busWrite (0x020 + 4 * k.val) 4 w s = (.okay, { s with din := b }) ∧
      ∀ i : Fin 16, b.get i = if i.val / 4 = k.val then w.extractLsb' (8 * (i.val % 4)) 8 else s.din.get i) ∧
    (∃ b, busWrite (0x040 + 4 * k.val) 4 w s = (.okay, { s with iv := b }) ∧
      ∀ i : Fin 16, b.get i = if i.val / 4 = k.val then w.extractLsb' (8 * (i.val % 4)) 8 else s.iv.get i) ∧
    busWrite (0x030 + 4 * k.val) 4 w s = (.okay, s) ∧ busWrite (0x050 + 4 * k.val) 4 w s = (.okay, s))

/-- KEY writes invalidate the round keys (20_memory.md R56; 70_reset_and_hazards.md R322): after an accepted write to any KEY
word, of any value, RK_VALID is 0, and ADD_ROUND_KEY and MODE_BLOCK then fail with SEQUENCE_ERR and change nothing else. -/
def Obligations.KeyWriteInvalidatesRoundKeys : Prop :=
  ∀ (s : State) (k : Fin 4) (w : Word) (rest : List Event), busy s = false →
    s.inputs = memWrite (0x010 + 4 * k.val) w :: rest →
    ∃ t, step s = .next t ∧ t.rkValid = false ∧ t.rk = s.rk ∧
      (∀ idx : BitVec 4, idx.toNat ≤ 10 → exec (.addRoundKey idx) t = .next (failedWith .sequenceErr t)) ∧
      exec .modeBlock t = .next (failedWith .sequenceErr t)

/-- The fields of STATUS by bit (10_state.md R39), MODE and ERRCODE by their codes (10_state.md R33; 60_exceptions.md R280), and
its write: bit 5 clears OVR and every other bit is ignored, also as a step of the machine. Any accepted write while not busy is
one event, the register's own effect with the response OKAY (20_memory.md R66). -/
def Obligations.StatusFieldsByBit : Prop :=
  (∀ s : State,
    (windowRead 0x004 s).getLsbD 0 = busy s ∧ (windowRead 0x004 s).getLsbD 1 = s.done ∧
    ((windowRead 0x004 s).getLsbD 2 = true ↔ s.errcode ≠ .ok) ∧ (windowRead 0x004 s).getLsbD 3 = s.sboxReady ∧
    (windowRead 0x004 s).getLsbD 4 = s.rkValid ∧ (windowRead 0x004 s).getLsbD 5 = s.ovr ∧
    (windowRead 0x004 s).extractLsb' 6 2 =
      (match s.mode with | .idle => 0 | .cbcEnc => 1 | .cbcDec => 2 | .ctr => 3) ∧
    (windowRead 0x004 s).extractLsb' 8 4 =
      (match s.errcode with | .ok => 0 | .illegalCmd => 1 | .unsupportedMode => 2 | .sequenceErr => 3) ∧
    (windowRead 0x004 s).extractLsb' 12 20 = 0) ∧
  (∀ (s : State) (w : Word), busy s = false →
    busWrite 0x004 4 w s = (.okay, { s with ovr := s.ovr && !w.getLsbD 5 })) ∧
  (∀ (s : State) (w : Word) (rest : List Event), busy s = false → s.inputs = memWrite 0x004 w :: rest →
    step s = .next { s with
      ovr := s.ovr && !w.getLsbD 5, inputs := rest, busLog := ⟨0x004, .write w, .okay, 0⟩ :: s.busLog }) ∧
  (∀ (s : State) (off : Nat) (w : Word) (rest : List Event), WordOffset off → busy s = false →
    s.inputs = memWrite off w :: rest →
    step s = .next { (busWrite off 4 w s).2 with
      inputs := rest, busLog := ⟨off, .write w, .okay, 0⟩ :: s.busLog })

/-- The GF register (20_memory.md R59): a read returns zext_32(GR << 16 | GB << 8 | GA), an accepted write sets GA and GB and
ignores w[31:16], also as a step of the machine. -/
def Obligations.GfRegisterReadAndWrite : Prop :=
  (∀ s : State, busRead 0x008 4 s =
    (.okay, (s.gr.setWidth 32 <<< 16) ||| (s.gb.setWidth 32 <<< 8) ||| s.ga.setWidth 32)) ∧
  (∀ (s : State) (w : Word), busy s = false →
    busWrite 0x008 4 w s = (.okay, { s with ga := w.extractLsb' 0 8, gb := w.extractLsb' 8 8 })) ∧
  (∀ (s : State) (w : Word) (rest : List Event), busy s = false → s.inputs = memWrite 0x008 w :: rest →
    step s = .next { s with
      ga := w.extractLsb' 0 8, gb := w.extractLsb' 8 8, inputs := rest,
      busLog := ⟨0x008, .write w, .okay, 0⟩ :: s.busLog })

/-- The ROM windows (20_memory.md R63; 70_reset_and_hazards.md R311; 90_conflicts.md C8): byte j of the word at 0x100 + 4k is
SBOX[4k + j] and at 0x200 + 4k INV_SBOX[4k + j], or 0 while the build runs; writes answer OKAY and are ignored. -/
def Obligations.RomWindowsReadTheTables : Prop :=
  (∀ (s : State) (k : Fin 64) (j : Fin 4), s.sboxReady = true →
    wordByte (windowRead (0x100 + 4 * k.val) s) j.val = sbox (BitVec.ofNat 8 (4 * k.val + j.val)) ∧
    wordByte (windowRead (0x200 + 4 * k.val) s) j.val = invSbox (BitVec.ofNat 8 (4 * k.val + j.val))) ∧
  (∀ (s : State) (k : Fin 64), s.sboxReady = false →
    windowRead (0x100 + 4 * k.val) s = 0 ∧ windowRead (0x200 + 4 * k.val) s = 0) ∧
  (∀ (s : State) (k : Fin 64) (w : Word), busy s = false →
    busWrite (0x100 + 4 * k.val) 4 w s = (.okay, s) ∧ busWrite (0x200 + 4 * k.val) 4 w s = (.okay, s))

/-- The round-key window (20_memory.md R64): byte j of the word at 0x300 + 16n + 4k is byte 4k + j of encode(RK[n]), writes are
ignored, and encode(RK[0]) is KEY whenever RK_VALID = 1. -/
def Obligations.RoundKeyWindow : Prop :=
  (∀ (s : State) (n : Fin 11) (k j : Fin 4),
    wordByte (windowRead (0x300 + 16 * n.val + 4 * k.val) s) j.val =
      (encodeState (s.rk.get n)).get ⟨4 * k.val + j.val, by omega⟩) ∧
  (∀ (s : State) (n : Fin 11) (k : Fin 4) (w : Word), busy s = false →
    busWrite (0x300 + 16 * n.val + 4 * k.val) 4 w s = (.okay, s)) ∧
  (∀ s : State, Inv s → s.rkValid = true → encodeState (s.rk.get 0) = s.key)

/-- No host access changes what only commands write: GR, DOUT, CHAIN, ST, RK, MODE, SBOX_READY (10_state.md R22, R25, R27 to
R29, R32, R33; 20_memory.md R61). -/
def Obligations.HostCannotWriteResults : Prop :=
  ∀ (s t : State) (a : Access) (rest : List Event), s.inputs = .host a :: rest → step s = .next t →
    t.gr = s.gr ∧ t.dout = s.dout ∧ t.chain = s.chain ∧ t.st = s.st ∧ t.rk = s.rk ∧ t.mode = s.mode ∧
    t.sboxReady = s.sboxReady ∧ t.rngDraws = s.rngDraws

/-! ## Reset and the invariant -/

/-- The reset step (70_reset_and_hazards.md R310, R311): from any state, also with a command pending, STATUS reads 1 and the ROM
windows read 0, every other word reads 0, and the core's next step ends the build in the state after reset, OVR as the
host's writes during the build left it. -/
def Obligations.ResetThenBuild : Prop :=
  ∀ (s : State) (rest : List Event), s.inputs = .reset :: rest →
    ∃ t, step s = .next t ∧ t.pending = none ∧ windowRead 0x004 t = 0x00000001 ∧
      (∀ off, WordOffset off → off ≠ 0x004 → windowRead off t = 0) ∧
      t.rngDraws = s.rngDraws ∧ t.inputs = rest ∧ t.busLog = s.busLog ∧
      (∀ b : Bool, CoreTurn t →
        step { t with ovr := b } =
          .next { State.reset with
                  ovr := b, rngDraws := s.rngDraws, inputs := rest.tail, busLog := s.busLog })

/-- After reset (70_reset_and_hazards.md R312; 10_state.md R42): STATUS reads 0x00000008, every other word of the window outside
the ROM windows reads 0, ST and MODE are cleared, nothing is pending, and ADD_ROUND_KEY and MODE_BLOCK fail with
SEQUENCE_ERR. -/
def Obligations.ResetStateAsSpecified : Prop :=
  windowRead 0x004 State.reset = 0x00000008 ∧
  (∀ off, WordOffset off → off ≠ 0x004 → (off < 0x100 ∨ 0x300 ≤ off) → windowRead off State.reset = 0) ∧
  (∀ r c, cell State.reset.st r c = 0) ∧ State.reset.mode = .idle ∧ State.reset.pending = none ∧
  (∀ idx : BitVec 4, idx.toNat ≤ 10 →
    exec (.addRoundKey idx) State.reset = .next (failedWith .sequenceErr State.reset)) ∧
  exec .modeBlock State.reset = .next (failedWith .sequenceErr State.reset)

/-- The invariant holds after reset (10_state.md R42, R46). -/
def Obligations.ResetMeetsInvariant : Prop := Inv State.reset

/-- Every step of any agent keeps the invariant: RK_VALID = 1 implies RK = KeySchedule(decode(KEY)), a pending command is
CMD_LAST with DONE and ERRCODE 0, CHAIN is 0 in IDLE, the build runs over reset values, and an error code needs DONE
(10_state.md R46; 30_encoding.md R91; 45_mode_controller.md R226; 70_reset_and_hazards.md R311). -/
def Obligations.EveryStepKeepsInvariant : Prop := ∀ s t : State, Inv s → step s = .next t → Inv t

/-! ## Field arithmetic and the tables -/

/-- xtime (40_field_arithmetic.md R112): the 9-bit shift reduced by 0x11B, which equals the shift XORed with 0x1B when bit 7 is
set. -/
def Obligations.XtimeReducesByThePolynomial : Prop :=
  ∀ a : Byte,
    xtime a = (let t : BitVec 9 := a.setWidth 9 <<< 1; ((if t.getLsbD 8 then t ^^^ 0x11B else t).setWidth 8 : Byte)) ∧
    xtime a = (a <<< 1) ^^^ (if a.getLsbD 7 then 0x1B else 0x00)

/-- The field laws (40_field_arithmetic.md R115). -/
def Obligations.FieldLaws : Prop :=
  (∀ a b : Byte, gmul a b = gmul b a) ∧ (∀ a b c : Byte, gmul (gmul a b) c = gmul a (gmul b c)) ∧
  (∀ a b c : Byte, gmul a (b ^^^ c) = gmul a b ^^^ gmul a c) ∧
  (∀ a : Byte, gmul a 0x01 = a ∧ gmul a 0x00 = 0x00) ∧ (∀ a : Byte, a ≠ 0 → gmul a (ginv a) = 0x01) ∧
  (∀ a : Byte, ginv (ginv a) = a)

/-- ginv(a) is the unique b with gmul(a, b) = 1, and 0 for 0 (40_field_arithmetic.md R114). -/
def Obligations.GinvIsTheUniqueInverse : Prop :=
  ginv 0x00 = 0x00 ∧ ∀ a b : Byte, a ≠ 0 → (gmul a b = 0x01 ↔ b = ginv a)

/-- The table builder's two rules give the ROMs (40_field_arithmetic.md R116, R117). -/
def Obligations.RomsHoldTheBuiltTables : Prop :=
  (∀ a : Byte, sbox a =
    (let b := ginv a; b ^^^ rotl8 b 1 ^^^ rotl8 b 2 ^^^ rotl8 b 3 ^^^ rotl8 b 4 ^^^ 0x63)) ∧
  (∀ a : Byte, invSbox a = ginv (rotl8 a 1 ^^^ rotl8 a 3 ^^^ rotl8 a 6 ^^^ 0x05))

/-- The table contract in both directions (40_field_arithmetic.md R118). -/
def Obligations.TablesAreMutuallyInverse : Prop := ∀ b : Byte, invSbox (sbox b) = b ∧ sbox (invSbox b) = b

/-- GF_MUL, GF_INV, SBOX_FWD and SBOX_INV complete in every state, write GR with their value, and change nothing else but the
completion bookkeeping; in the GF register only byte 2 changes (40_field_arithmetic.md R120 to R123). -/
def Obligations.FieldCommandsWriteGr : Prop :=
  ∀ s : State,
    (∃ t, exec .gfMul s = .next t ∧ t = doneWith { s with gr := gmul s.ga s.gb } ∧
      wordByte (windowRead 0x008 t) 2 = gmul s.ga s.gb ∧
      wordByte (windowRead 0x008 t) 0 = s.ga ∧ wordByte (windowRead 0x008 t) 1 = s.gb) ∧
    (∃ t, exec .gfInv s = .next t ∧ t = doneWith { s with gr := ginv s.ga } ∧
      wordByte (windowRead 0x008 t) 2 = ginv s.ga ∧ wordByte (windowRead 0x008 t) 1 = s.gb) ∧
    (∃ t, exec .sboxFwd s = .next t ∧ t = doneWith { s with gr := sbox s.ga } ∧
      wordByte (windowRead 0x008 t) 2 = sbox s.ga ∧ invSbox t.gr = s.ga) ∧
    (∃ t, exec .sboxInv s = .next t ∧ t = doneWith { s with gr := invSbox s.ga } ∧
      wordByte (windowRead 0x008 t) 2 = invSbox s.ga ∧ sbox t.gr = s.ga)

/-! ## The codec and the round transforms -/

/-- The round-trip law of the codec (41_state_codec.md R142). -/
def Obligations.CodecRoundTrip : Prop :=
  (∀ b : Block, encodeState (decodeBlock b) = b) ∧ (∀ s : AesState, decodeBlock (encodeState s) = s)

/-- LOAD_STATE and STORE_STATE complete in every state: st[r][c] = DIN[4c + r], DOUT[i] = st[i mod 4][i div 4], and nothing else
changes; one after the other they leave DOUT = DIN (41_state_codec.md R140, R141, R145, R146). -/
def Obligations.LoadAndStoreState : Prop :=
  ∀ s : State,
    (∃ m, exec .loadState s = .next (doneWith { s with st := m }) ∧
      (∀ r c : Fin 4, cell m r c = s.din.get ⟨4 * c.val + r.val, by omega⟩) ∧
      exec .storeState (doneWith { s with st := m }) = .next (doneWith { s with st := m, dout := s.din })) ∧
    (∃ b, exec .storeState s = .next (doneWith { s with dout := b }) ∧
      ∀ i : Fin 16, b.get i = cell s.st ⟨i.val % 4, by omega⟩ ⟨i.val / 4, by omega⟩)

/-- The six transform commands complete in every state, write ST with the transform's value cell by cell, and change nothing
else (43_round_transforms.md R170 to R175, R177 to R182). -/
def Obligations.TransformCommandsByCell : Prop :=
  ∀ s : State,
    (∃ m, exec .subBytes s = .next (doneWith { s with st := m }) ∧ ∀ r c, cell m r c = sbox (cell s.st r c)) ∧
    (∃ m, exec .invSubBytes s = .next (doneWith { s with st := m }) ∧ ∀ r c, cell m r c = invSbox (cell s.st r c)) ∧
    (∃ m, exec .shiftRows s = .next (doneWith { s with st := m }) ∧ ∀ r c, cell m r c = cell s.st r (c + r)) ∧
    (∃ m, exec .invShiftRows s = .next (doneWith { s with st := m }) ∧ ∀ r c, cell m r c = cell s.st r (c - r)) ∧
    (∃ m, exec .mixColumns s = .next (doneWith { s with st := m }) ∧
      ∀ r c, cell m r c = gmul 0x02 (cell s.st r c) ^^^ gmul 0x03 (cell s.st (r + 1) c) ^^^
        cell s.st (r + 2) c ^^^ cell s.st (r + 3) c) ∧
    (∃ m, exec .invMixColumns s = .next (doneWith { s with st := m }) ∧
      ∀ r c, cell m r c = gmul 0x0E (cell s.st r c) ^^^ gmul 0x0B (cell s.st (r + 1) c) ^^^
        gmul 0x0D (cell s.st (r + 2) c) ^^^ gmul 0x09 (cell s.st (r + 3) c))

/-- Each transform is undone by its inverse, in both orders, and AddRoundKey by itself (43_round_transforms.md R184). -/
def Obligations.TransformsAndInverses : Prop :=
  ∀ s k : AesState,
    invSubBytes (subBytes s) = s ∧ subBytes (invSubBytes s) = s ∧ invShiftRows (shiftRows s) = s ∧
    shiftRows (invShiftRows s) = s ∧ invMixColumns (mixColumns s) = s ∧ mixColumns (invMixColumns s) = s ∧
    addRoundKey (addRoundKey s k) k = s

/-- ADD_ROUND_KEY idx (43_round_transforms.md R183): with RK_VALID = 1 it completes for every idx 0..10, XORs RK[idx] into ST and
changes nothing else; with RK_VALID = 0 it fails with SEQUENCE_ERR; the terms with idx above 10, to which no word decodes,
fail with ILLEGAL_CMD (log entry 11). -/
def Obligations.AddRoundKeyCommand : Prop :=
  (∀ (s : State) (idx : BitVec 4) (h : idx.toNat < 11), s.rkValid = true →
    ∃ m, exec (.addRoundKey idx) s = .next (doneWith { s with st := m }) ∧
      ∀ r c, cell m r c = cell s.st r c ^^^ cell (s.rk.get ⟨idx.toNat, h⟩) r c) ∧
  (∀ (s : State) (idx : BitVec 4), idx.toNat < 11 → s.rkValid = false →
    exec (.addRoundKey idx) s = .next (failedWith .sequenceErr s)) ∧
  (∀ (s : State) (idx : BitVec 4), 11 ≤ idx.toNat → exec (.addRoundKey idx) s = .next (failedWith .illegalCmd s))

/-! ## The key schedule and the block cipher -/

/-- KeySchedule (42_key_schedule.md R150 to R153): entry 0 is the key; each later entry has column 0 from the rotated and
substituted last column, the round constant in row 0, and column 0 before it, and columns 1..3 each from the column before. -/
def Obligations.KeyScheduleRecurrence : Prop :=
  (∀ k : AesState, (keySchedule k).get 0 = k) ∧
  (∀ (k : AesState) (i : Fin 10) (r : Fin 4),
    cell ((keySchedule k).get i.succ) r 0 =
      sbox (cell ((keySchedule k).get i.castSucc) (r + 1) 3) ^^^
        (if r = 0 then [0x01, 0x02, 0x04, 0x08, 0x10, 0x20, 0x40, 0x80, 0x1B, 0x36].getD i.val 0 else 0) ^^^
        cell ((keySchedule k).get i.castSucc) r 0 ∧
    ∀ j : Fin 4, j ≠ 0 →
      cell ((keySchedule k).get i.succ) r j =
        cell ((keySchedule k).get i.castSucc) r j ^^^ cell ((keySchedule k).get i.succ) r (j - 1))

/-- KEY_EXPAND completes in every state, writes all of RK and RK_VALID, and changes nothing else; a second one changes RK no
more (42_key_schedule.md R154, R155). -/
def Obligations.KeyExpandCommand : Prop :=
  ∀ s : State, ∃ t, exec .keyExpand s = .next t ∧
    t = doneWith { s with rk := keySchedule (decodeBlock s.key), rkValid := true } ∧ exec .keyExpand t = .next t ∧
    encodeState (t.rk.get 0) = s.key

/-- Decryption undoes encryption and the other way round, for every block and key (44_block_cipher.md R202). -/
def Obligations.CipherRoundTrip : Prop :=
  ∀ p k : Block, decryptBlock (encryptBlock p k) k = p ∧ encryptBlock (decryptBlock p k) k = p

/-- The known-answer test of the source (44_block_cipher.md R203). -/
def Obligations.KnownAnswerTest : Prop :=
  encryptBlock (ctrFromInt 0x00112233445566778899aabbccddeeff) (ctrFromInt 0x000102030405060708090a0b0c0d0e0f) =
    ctrFromInt 0x69c4e0d86a7b0430d8cdb78070b4c55a

/-- ENCRYPT_BLOCK and DECRYPT_BLOCK complete in every state and mode, whatever RK_VALID was, write DOUT, RK and RK_VALID and change
nothing else; one after the other, with DOUT copied to DIN, restores the block (44_block_cipher.md R204, R205). -/
def Obligations.BlockCipherCommands : Prop :=
  ∀ s : State,
    (∃ t, exec .encryptBlock s = .next t ∧
      t = doneWith { s with rk := keySchedule (decodeBlock s.key), rkValid := true, dout := encryptBlock s.din s.key } ∧
      ∃ u, exec .decryptBlock { t with din := t.dout } = .next u ∧ u.dout = s.din) ∧
    (∃ t, exec .decryptBlock s = .next t ∧
      t = doneWith { s with rk := keySchedule (decodeBlock s.key), rkValid := true, dout := decryptBlock s.din s.key } ∧
      ∃ u, exec .encryptBlock { t with din := t.dout } = .next u ∧ u.dout = s.din)

/-- The host program of 44_block_cipher.md R207: KEY_EXPAND, LOAD_STATE and the round primitives, each issued and waited for,
leave in DOUT the value ENCRYPT_BLOCK gives, and the mirror sequence that of DECRYPT_BLOCK; on every schedule of host and core
the program runs without a stop and can be brought to its end. The schedule and the WAIT loop are the model's (log entries 3,
15). -/
def Obligations.PrimitiveSequencesAgreeWithTheCipher : Prop :=
  ∀ s : State, Ready s →
    (startProgram (execProgram encryptSequence) s).EndsWith (fun r => r.core.dout = encryptBlock s.din s.key) ∧
    (startProgram (execProgram decryptSequence) s).EndsWith (fun r => r.core.dout = decryptBlock s.din s.key)

/-! ## The mode controller -/

/-- The counter of CTR (45_mode_controller.md R221, R222): toInt is the sum of b[i] * 256^(15 - i), byte 0 most significant,
fromInt(n) has the byte (n div 256^(15 - i)) mod 256 at i, they are inverse to each other, and ctr_inc adds one modulo 2^128,
wrapping from all ff to all 00. -/
def Obligations.CounterIncrementsModulo : Prop :=
  (∀ b : Block, ctrToInt b = ∑ i : Fin 16, (b.get i).toNat * 256 ^ (15 - i.val)) ∧
  (∀ (n : Nat) (i : Fin 16), ((ctrFromInt n).get i).toNat = n / 256 ^ (15 - i.val) % 256) ∧
  (∀ b : Block, ctrToInt b < 2 ^ 128 ∧ ctrFromInt (ctrToInt b) = b) ∧
  (∀ n : Nat, n < 2 ^ 128 → ctrToInt (ctrFromInt n) = n) ∧
  (∀ b : Block, ctrToInt (ctrInc b) = (ctrToInt b + 1) % 2 ^ 128) ∧
  ctrInc (Vector.replicate 16 0xFF) = zeroBlock

/-- MODE_START (45_mode_controller.md R223, R236): for every mode, with the prefix from IV, or for CBC_ENC and CTR from one draw of
the random-bytes port, it completes in every state, writes IV, CHAIN and DOUT with the prefix, expands the key and sets
MODE, and changes nothing else; with RNG the draw counted is the only request. The term CBC_DEC with RNG fails with
ILLEGAL_CMD and makes no request (log entry 11). -/
def Obligations.ModeStartCommand : Prop :=
  (∀ (s : State) (m : StartMode),
    exec (.modeStart m false) s =
      .next (doneWith { s with
        chain := s.iv, dout := s.iv, mode := startedMode m, rk := keySchedule (decodeBlock s.key), rkValid := true })) ∧
  (∀ (s : State) (m : StartMode), m ≠ .cbcDec →
    ∃ v, v = Config.rngDraw s.rngDraws ∧ exec (.modeStart m true) s =
      .next (doneWith { s with
        iv := v, chain := v, dout := v, mode := startedMode m, rk := keySchedule (decodeBlock s.key), rkValid := true,
        rngDraws := s.rngDraws + 1 })) ∧
  (∀ s : State, exec (.modeStart .cbcDec true) s = .next (failedWith .illegalCmd s))

/-- MODE_BLOCK (45_mode_controller.md R224): in CBC_ENC, CBC_DEC and CTR with RK_VALID = 1 it completes, writes CHAIN and DOUT by
the mode's rule and changes nothing else; in IDLE or with RK_VALID = 0 it fails with SEQUENCE_ERR. -/
def Obligations.ModeBlockCommand : Prop :=
  (∀ s : State, s.mode = .cbcEnc → s.rkValid = true →
    ∃ c, c = encryptBlock (blockXor s.din s.chain) s.key ∧
      exec .modeBlock s = .next (doneWith { s with chain := c, dout := c })) ∧
  (∀ s : State, s.mode = .cbcDec → s.rkValid = true →
    exec .modeBlock s =
      .next (doneWith { s with chain := s.din, dout := blockXor (decryptBlock s.din s.key) s.chain })) ∧
  (∀ s : State, s.mode = .ctr → s.rkValid = true →
    exec .modeBlock s =
      .next (doneWith { s with
        chain := ctrInc s.chain, dout := blockXor s.din (encryptBlock (ctrInc s.chain) s.key) })) ∧
  (∀ s : State, s.mode = .idle ∨ s.rkValid = false → exec .modeBlock s = .next (failedWith .sequenceErr s))

/-- MODE_BLOCK may as well use the stored round keys (45_mode_controller.md R224; 10_state.md R46): in each mode, with RK_VALID = 1,
its next state is the one computed with RK, since RK is the expansion of KEY. The model's MODE_BLOCK uses KEY (log entry 16); the
invariant is a premise. -/
def Obligations.ModeBlockWithStoredRoundKeys : Prop :=
  ∀ s : State, Inv s → s.rkValid = true →
    (s.mode = .cbcEnc →
      ∃ c, c = encodeState (encryptWith s.rk (decodeBlock (blockXor s.din s.chain))) ∧
        exec .modeBlock s = .next (doneWith { s with chain := c, dout := c })) ∧
    (s.mode = .cbcDec →
      exec .modeBlock s =
        .next (doneWith { s with
          chain := s.din, dout := blockXor (encodeState (decryptWith s.rk (decodeBlock s.din))) s.chain })) ∧
    (s.mode = .ctr →
      exec .modeBlock s =
        .next (doneWith { s with
          chain := ctrInc s.chain,
          dout := blockXor s.din (encodeState (encryptWith s.rk (decodeBlock (ctrInc s.chain)))) }))

/-- The CTR counter convention (45_mode_controller.md R225): over any sequence of MODE_BLOCK completions with any DIN values, the
block number j + 1 is XORed with encryptBlock(fromInt((toInt(prefix) + j + 1) mod 2^128), KEY). -/
def Obligations.CtrCounterConvention : Prop :=
  ∀ (σ : Nat → State) (d : Nat → Block), (σ 0).mode = .ctr → (σ 0).rkValid = true →
    (∀ j, exec .modeBlock { σ j with din := d j } = .next (σ (j + 1))) →
    ∀ j, (σ (j + 1)).dout =
      blockXor (d j) (encryptBlock (ctrFromInt ((ctrToInt (σ 0).chain + (j + 1)) % 2 ^ 128)) (σ 0).key)

/-- MODE_END completes in every state, IDLE included, clears MODE and CHAIN and keeps everything else (45_mode_controller.md R226),
so that MODE_BLOCK then fails. -/
def Obligations.ModeEndCommand : Prop :=
  ∀ s : State, ∃ t, exec .modeEnd s = .next t ∧ t = doneWith { s with mode := .idle, chain := zeroBlock } ∧
    exec .modeBlock t = .next (failedWith .sequenceErr t)

/-- NOP completes in every state and mode and changes nothing but the completion bookkeeping, so that it clears the ERR indication
of an earlier command (46_control.md R270). -/
def Obligations.NopOnlyCompletes : Prop :=
  ∀ s : State, ∃ t, exec .nop s = .next t ∧ t = doneWith s ∧ (windowRead 0x004 t).getLsbD 2 = false

/-- The transitions of MODE and CHAIN (45_mode_controller.md R227): MODE_START without error enters its mode with the prefix in
CHAIN, MODE_BLOCK without error stays, MODE_END goes to IDLE with CHAIN 0, and every failing or other command leaves both. -/
def Obligations.ModeTransitions : Prop :=
  ∀ (i : Instr) (s t : State), exec i s = .next t →
    (t.errcode ≠ .ok → t.mode = s.mode ∧ t.chain = s.chain) ∧
    (t.errcode = .ok →
      match i with
      | .modeStart m rng =>
        t.mode = startedMode m ∧ t.chain = t.iv ∧ (rng = false → t.chain = s.iv)
      | .modeBlock => t.mode = s.mode ∧ s.mode ≠ .idle
      | .modeEnd => t.mode = .idle ∧ t.chain = zeroBlock
      | _ => t.mode = s.mode ∧ t.chain = s.chain)

/-- Who writes what (10_state.md R22 to R30): no command writes KEY, DIN, GA, GB, CMD_LAST, SBOX_READY or OVR, and each of GR, DOUT,
ST, RK, RK_VALID, CHAIN, MODE and IV changes only by the commands the rules name. -/
def Obligations.CommandsWriteOnlyTheirElements : Prop :=
  ∀ (i : Instr) (s t : State), exec i s = .next t →
    (t.key = s.key ∧ t.din = s.din ∧ t.ga = s.ga ∧ t.gb = s.gb ∧ t.cmdLast = s.cmdLast ∧ t.sboxReady = s.sboxReady ∧
      t.ovr = s.ovr ∧ t.inputs = s.inputs ∧ t.busLog = s.busLog) ∧
    (writesGr i = false → t.gr = s.gr) ∧ (writesDout i = false → t.dout = s.dout) ∧
    (writesSt i = false → t.st = s.st) ∧ (writesRk i = false → t.rk = s.rk ∧ t.rkValid = s.rkValid) ∧
    (writesChain i = false → t.chain = s.chain ∧ t.mode = s.mode) ∧
    ((∀ m, i ≠ .modeStart m true) → t.iv = s.iv ∧ t.rngDraws = s.rngDraws)

/-- The window's frame: after a command completes, every word of the window reads as before but STATUS, GF for the field commands,
DOUT, CHAIN and the round-key file for the commands that write them, and IV for MODE_START with RNG (20_memory.md R54, R68;
10_state.md R22 to R30). -/
def Obligations.CommandsLeaveOtherWordsUnchanged : Prop :=
  ∀ (i : Instr) (s t : State) (off : Nat), exec i s = .next t → WordOffset off → off ≠ 0x004 →
    (off = 0x008 → writesGr i = false) → (0x030 ≤ off ∧ off < 0x040 → writesDout i = false) →
    (0x050 ≤ off ∧ off < 0x060 → writesChain i = false) → (0x300 ≤ off ∧ off < 0x3B0 → writesRk i = false) →
    (0x040 ≤ off ∧ off < 0x050 → ∀ m, i ≠ .modeStart m true) →
    windowRead off t = windowRead off s

/-- Partial CTR blocks (45_mode_controller.md R239): two values of DIN that agree in the first L bytes give DOUT values that agree
there, whatever the other bytes are, and the same counter. -/
def Obligations.PartialCtrBlockFillNeverReachesOutput : Prop :=
  ∀ (s t u : State) (d e : Block) (len : Nat), s.mode = .ctr → s.rkValid = true →
    (∀ i : Fin 16, i.val < len → d.get i = e.get i) →
    exec .modeBlock { s with din := d } = .next t → exec .modeBlock { s with din := e } = .next u →
    t.chain = u.chain ∧ ∀ i : Fin 16, i.val < len → t.dout.get i = u.dout.get i

/-! ## The message functions and the driver -/

/-- The boundary checks and their order, and that a failing call has no host program (45_mode_controller.md R230). -/
def Obligations.BoundaryChecksInOrder : Prop :=
  ∀ (x key : List Byte) (mode : CipherMode) (iv : Option (List Byte)) (draw : Block) (fill : Nat → Block)
    (e : MsgError),
    (encryptMessage x key mode iv draw = .error e ↔
      (key.length ≠ 16 ∧ e = .invalidLength) ∨
      (key.length = 16 ∧ (∃ v, iv = some v ∧ v.length ≠ 16) ∧ e = .invalidLength) ∨
      (key.length = 16 ∧ (∀ v, iv = some v → v.length = 16) ∧ mode = .other ∧ e = .unsupportedMode) ∨
      (key.length = 16 ∧ (∀ v, iv = some v → v.length = 16) ∧ mode = .cbc ∧ x.length % 16 ≠ 0 ∧ e = .invalidLength)) ∧
    (decryptMessage x key mode = .error e ↔
      (key.length ≠ 16 ∧ e = .invalidLength) ∨ (key.length = 16 ∧ mode = .other ∧ e = .unsupportedMode) ∨
      (key.length = 16 ∧ mode ≠ .other ∧ x.length < 16 ∧ e = .malformedCiphertext) ∨
      (key.length = 16 ∧ mode = .cbc ∧ 16 ≤ x.length ∧ (x.length - 16) % 16 ≠ 0 ∧ e = .malformedCiphertext)) ∧
    (driveEncrypt x key mode iv fill = .error e ↔ encryptMessage x key mode iv draw = .error e) ∧
    (driveDecrypt x key mode fill = .error e ↔ decryptMessage x key mode = .error e)

/-- The output lengths of successful calls, and that a successful CBC encryption has whole blocks (45_mode_controller.md
R234). -/
def Obligations.MessageOutputLengths : Prop :=
  (∀ (p key : List Byte) (mode : CipherMode) (iv : Option (List Byte)) (draw : Block) (out : List Byte),
    encryptMessage p key mode iv draw = .ok out → out.length = 16 + p.length ∧ (mode = .cbc → p.length % 16 = 0)) ∧
  (∀ (c key : List Byte) (mode : CipherMode) (out : List Byte),
    decryptMessage c key mode = .ok out → out.length = c.length - 16)

/-- The message round trips in both modes, whatever the random-bytes port answers, and the self-inverse law of CTR
(45_mode_controller.md R237 (a), (b), (c)). -/
def Obligations.MessageRoundTrips : Prop :=
  (∀ (p key : List Byte) (mode : CipherMode) (iv : Option (List Byte)) (draw : Block) (out : List Byte),
    encryptMessage p key mode iv draw = .ok out → decryptMessage out key mode = .ok p) ∧
  (∀ (x : List Byte) (k c0 : Block), ctrStream (ctrStream x k c0) k c0 = x)

/-- Distinct IVs (45_mode_controller.md R237 (d)): two CBC encryptions of one plaintext under one key with different IVs differ in
every block, the prefix included. -/
def Obligations.DistinctIvsDifferInEveryBlock : Prop :=
  ∀ (p key iv iv' : List Byte) (draw draw' : Block) (out out' : List Byte), iv ≠ iv' →
    encryptMessage p key .cbc (some iv) draw = .ok out → encryptMessage p key .cbc (some iv') draw' = .ok out' →
    ∀ j, j < p.length / 16 + 1 → piece out j ≠ piece out' j

/-- Driver correctness (45_mode_controller.md R240): run beside the core from any state in which it may be used, with any pad bytes
and on every schedule, the driver's host program returns the bytes of the message function, for the prefix given or drawn, none
of its commands fails, and it can always be brought to its end. The draw, the schedule and the WAIT loop are the model's (log
entries 3, 5, 15). -/
def Obligations.DriverMeetsTheMessageFunctions : Prop :=
  (∀ (s : State) (p key : List Byte) (mode : CipherMode) (iv : Option (List Byte)) (fill : Nat → Block)
    (prog : List HostStmt), Ready s → driveEncrypt p key mode iv fill = .ok prog →
    (startProgram prog { s with busLog := [] }).EndsWith fun r =>
      r.core.mode = .idle ∧ NoErrShown r.core.busLog ∧
      encryptMessage p key mode iv (Config.rngDraw s.rngDraws) = .ok (driverOutput .enc p r.blocks)) ∧
  (∀ (s : State) (c key : List Byte) (mode : CipherMode) (fill : Nat → Block) (prog : List HostStmt), Ready s →
    driveDecrypt c key mode fill = .ok prog →
    (startProgram prog { s with busLog := [] }).EndsWith fun r =>
      r.core.mode = .idle ∧ NoErrShown r.core.busLog ∧
      decryptMessage c key mode = .ok (driverOutput .dec (c.drop 16) r.blocks))
end

