-- ==== Sys2Proof/Laws/Data.lean ====
section
/-! SUPPORT. Blocks, State matrices and Words element by element: one lemma per constructor function, and extensionality. -/

namespace Sys2Proof.Machine

@[simp] theorem get_mkBlock (f : Fin 16 → Byte) (i : Fin 16) : (mkBlock f).get i = f i := by
  simp [mkBlock, Vector.get_eq_getElem]

@[simp] theorem cell_mkState (f : Fin 4 → Fin 4 → Byte) (r c : Fin 4) : cell (mkState f) r c = f r c := by
  simp [mkState, cell, Vector.get_eq_getElem]

/-- Two Blocks with the same bytes are equal. -/
theorem block_ext {a b : Block} (h : ∀ i : Fin 16, a.get i = b.get i) : a = b :=
  Vector.ext fun i hi => h ⟨i, hi⟩

/-- Two State matrices with the same cells are equal. -/
theorem state_ext {a b : AesState} (h : ∀ r c : Fin 4, cell a r c = cell b r c) : a = b :=
  Vector.ext fun r hr => Vector.ext fun c hc => h ⟨r, hr⟩ ⟨c, hc⟩

@[simp] theorem get_blockXor (a b : Block) (i : Fin 16) : (blockXor a b).get i = a.get i ^^^ b.get i := by
  simp [blockXor]

@[simp] theorem get_zeroBytes (i : Fin 16) : (Vector.replicate 16 (0 : Byte)).get i = 0 := by
  simp [Vector.get_eq_getElem]

@[simp] theorem get_keySchedule (k : AesState) (n : Fin 11) : (keySchedule k).get n = roundKey k n.val := by
  simp [keySchedule, Vector.get_eq_getElem]

@[simp] theorem wordByte_packWord_0 (a b c d : Byte) : wordByte (packWord a b c d) 0 = a := by
  apply BitVec.eq_of_getLsbD_eq; intro i hi
  have key : ∀ i : Fin 8, ∀ x y z w : Byte, (wordByte (packWord x y z w) 0).getLsbD i.val = [x, y, z, w][0].getLsbD i.val := by
    intro i x y z w; fin_cases i <;> simp [wordByte, packWord]
  exact key ⟨i, hi⟩ a b c d

@[simp] theorem wordByte_packWord_1 (a b c d : Byte) : wordByte (packWord a b c d) 1 = b := by
  apply BitVec.eq_of_getLsbD_eq; intro i hi
  have key : ∀ i : Fin 8, ∀ x y z w : Byte, (wordByte (packWord x y z w) 1).getLsbD i.val = [x, y, z, w][1].getLsbD i.val := by
    intro i x y z w; fin_cases i <;> simp [wordByte, packWord]
  exact key ⟨i, hi⟩ a b c d

@[simp] theorem wordByte_packWord_2 (a b c d : Byte) : wordByte (packWord a b c d) 2 = c := by
  apply BitVec.eq_of_getLsbD_eq; intro i hi
  have key : ∀ i : Fin 8, ∀ x y z w : Byte, (wordByte (packWord x y z w) 2).getLsbD i.val = [x, y, z, w][2].getLsbD i.val := by
    intro i x y z w; fin_cases i <;> simp [wordByte, packWord]
  exact key ⟨i, hi⟩ a b c d

@[simp] theorem wordByte_packWord_3 (a b c d : Byte) : wordByte (packWord a b c d) 3 = d := by
  apply BitVec.eq_of_getLsbD_eq; intro i hi
  have key : ∀ i : Fin 8, ∀ x y z w : Byte, (wordByte (packWord x y z w) 3).getLsbD i.val = [x, y, z, w][3].getLsbD i.val := by
    intro i x y z w; fin_cases i <;> simp [wordByte, packWord]
  exact key ⟨i, hi⟩ a b c d

/-- Byte j of word k of a Block (20_memory.md R55). -/
theorem wordByte_blockWord (b : Block) (k j : Fin 4) :
    wordByte (blockWord b k) j.val = b.get ⟨4 * k.val + j.val, by omega⟩ := by
  fin_cases j <;> simp [blockWord]

/-- The bytes of a Block with one word replaced (20_memory.md R55). -/
@[simp] theorem get_setBlockWord (b : Block) (k : Fin 4) (w : Word) (i : Fin 16) :
    (setBlockWord b k w).get i = if i.val / 4 = k.val then wordByte w (i.val % 4) else b.get i := by
  simp [setBlockWord]

end Sys2Proof.Machine
end

