-- ==== Sys2Proof/Laws/Bytes.lean ====
section
/-! SUPPORT. Byte strings and their pieces (45_mode_controller.md R231 to R233), the bytes of a Block, and the counter as a
number in base 256 (R221). -/

namespace Sys2Proof.Machine

theorem pieces_nil : pieces [] = [] := rfl

/-- The first piece and the rest (45_mode_controller.md R233). -/
theorem pieces_cons {l : List Byte} (h : l ≠ []) : pieces l = l.take 16 :: pieces (l.drop 16) := by
  have hl : 0 < l.length := List.length_pos_of_ne_nil h
  have e : (l.length + 15) / 16 = ((l.drop 16).length + 15) / 16 + 1 := by simp; omega
  unfold pieces
  rw [e, List.range_succ_eq_map]
  simp [piece, Function.comp_def, List.drop_drop, Nat.mul_add, Nat.add_comm]

/-- Induction over a byte string 16 bytes at a time. -/
theorem bytes_induction (P : List Byte → Prop) (h0 : P []) (hs : ∀ l, l ≠ [] → P (l.drop 16) → P l) : ∀ l, P l := by
  intro l
  induction h : l.length using Nat.strong_induction_on generalizing l with
  | _ n ih =>
    by_cases hl : l = []
    · subst hl; exact h0
    · have := List.length_pos_of_ne_nil hl
      exact hs l hl (ih _ (by simp; omega) _ rfl)

@[simp] theorem length_blockBytes (b : Block) : (blockBytes b).length = 16 := by simp [blockBytes]

theorem get_blockBytes (b : Block) (i : Nat) (h : i < 16) : (blockBytes b)[i]'(by simpa using h) = b.get ⟨i, h⟩ := by
  simp [blockBytes, Vector.get_eq_getElem]

theorem blockOfBytes_append (b : Block) (l : List Byte) : blockOfBytes (blockBytes b ++ l) = b := by
  apply block_ext; intro i
  have := i.isLt
  rw [blockOfBytes, get_mkBlock, List.getD_eq_getElem _ _ (by simp; omega), List.getElem_append_left (by simp)]
  exact get_blockBytes b i.val i.isLt

theorem blockOfBytes_blockBytes (b : Block) : blockOfBytes (blockBytes b) = b := by simpa using blockOfBytes_append b []

theorem blockBytes_blockOfBytes (x : List Byte) (h : x.length = 16) : blockBytes (blockOfBytes x) = x := by
  apply List.ext_getElem
  · simp [h]
  · intro i h1 h2
    rw [get_blockBytes _ i (by omega)]; simp [blockOfBytes]; rw [List.getElem?_eq_getElem h2]; rfl

theorem drop_blockBytes (b : Block) (l : List Byte) : (blockBytes b ++ l).drop 16 = l := by
  rw [List.drop_append_of_le_length (by simp)]; simp

theorem take_blockBytes (b : Block) (l : List Byte) : (blockBytes b ++ l).take 16 = blockBytes b := by
  rw [List.take_append_of_le_length (by simp)]; simp

theorem length_pieces (l) : (pieces l).length = (l.length + 15) / 16 := by simp [pieces]

/-- A full piece needs no fill (45_mode_controller.md R239). -/
theorem padPiece_full (f : Block) {x : List Byte} (h : x.length = 16) : padPiece f x = blockOfBytes x := by
  apply block_ext; intro i
  have := i.isLt
  simp only [padPiece, blockOfBytes, get_mkBlock]
  rw [List.getD_eq_getElem _ _ (by omega), List.getD_eq_getElem _ _ (by omega)]

/-- The sixteen indexes of a Block, in order. -/
theorem finRange_16 : List.finRange 16 = [0,1,2,3,4,5,6,7,8,9,10,11,12,13,14,15] := by decide

/-- Sixteen digits in base B, the first one most significant. -/
def horner (B : Nat) (x : Fin 16 → Nat) : Nat := ((((((((((((((((x 0) * B + x 1) * B + x 2) * B + x 3) * B + x 4) * B + x 5) * B + x 6) * B + x 7) * B + x 8) * B + x 9) * B + x 10) * B +
   x 11) * B + x 12) * B + x 13) * B + x 14) * B + x 15)

theorem horner_sum (B : Nat) (x : Fin 16 → Nat) : (List.map (fun i : Fin 16 => x i * B ^ (15 - i.val)) [0,1,2,3,4,5,6,7,8,9,10,11,12,13,14,15]).sum =
    horner B x := by
  unfold horner
  simp only [List.map, List.sum_cons, List.sum_nil, show (0:Fin 16).val = 0 from rfl, show (1:Fin 16).val = 1 from rfl, show (2:Fin 16).val = 2 from rfl, show (3:Fin 16).val = 3 from rfl, show (4:Fin 16).val = 4 from rfl, show (5:Fin 16).val = 5 from rfl, show (6:Fin 16).val = 6 from rfl, show (7:Fin 16).val = 7 from rfl, show (8:Fin 16).val = 8 from rfl, show (9:Fin 16).val = 9 from rfl, show (10:Fin 16).val = 10 from rfl, show (11:Fin 16).val = 11 from rfl, show (12:Fin 16).val = 12 from rfl, show (13:Fin 16).val = 13 from rfl, show (14:Fin 16).val = 14 from rfl, show (15:Fin 16).val = 15 from rfl, Nat.reduceSub]
  ring

/-- toInt reads the bytes as digits in base 256 (45_mode_controller.md R221). -/
theorem ctrToInt_eq_horner (b : Block) : ctrToInt b = horner 256 (fun i => (b.get i).toNat) := by
  unfold ctrToInt; rw [finRange_16]
  generalize 256 = B
  exact horner_sum B _

end Sys2Proof.Machine
end

