-- ==== Sys2Proof/Laws/Field.lean ====
section
/-! SUPPORT. gmul as a sum over the bits of its second operand, additivity of xtime, induction over the bits of a Byte, and
the search loop of ginv in terms of powers (40_field_arithmetic.md R112 to R114). -/

namespace Sys2Proof.Machine

/-- A Byte taken or left out. -/
def gated (c : Bool) (x : Byte) : Byte := if c then x else 0

theorem gated_xor (c : Bool) (x y : Byte) : gated c (x ^^^ y) = gated c x ^^^ gated c y := by cases c <;> simp [gated]

theorem gated_bxor (c d : Bool) (x : Byte) : gated (c ^^ d) x = gated c x ^^^ gated d x := by
  cases c <;> cases d <;> simp [gated]

/-- gmul is the sum of the doublings of a that b selects (40_field_arithmetic.md R113). -/
theorem gmul_eq_sum (a b : Byte) : gmul a b =
   gated (b.getLsbD 0) a ^^^ gated (b.getLsbD 1) (xtime a) ^^^ gated (b.getLsbD 2) (xtime (xtime a)) ^^^
   gated (b.getLsbD 3) (xtime (xtime (xtime a))) ^^^ gated (b.getLsbD 4) (xtime (xtime (xtime (xtime a)))) ^^^
   gated (b.getLsbD 5) (xtime (xtime (xtime (xtime (xtime a))))) ^^^ gated (b.getLsbD 6) (xtime (xtime (xtime (xtime (xtime (xtime a)))))) ^^^
   gated (b.getLsbD 7) (xtime (xtime (xtime (xtime (xtime (xtime (xtime a))))))) := by
  have e (c : Bool) (p x : Byte) : (if c = true then p ^^^ x else p) = p ^^^ gated c x := by cases c <;> simp [gated]
  simp only [gmul, List.range, List.range.loop, List.foldl, gmulStep, e]
  simp

/-- Doubling is additive (40_field_arithmetic.md R112). -/
theorem xtime_xor (a b : Byte) : xtime (a ^^^ b) = xtime a ^^^ xtime b := by
  have h : (a ^^^ b) <<< 1 = (a <<< 1) ^^^ (b <<< 1) := BitVec.shiftLeft_xor_distrib ..
  have hb : ∀ x y : Byte, x ^^^ 27#8 ^^^ (y ^^^ 27#8) = x ^^^ y := by
    intro x y
    rw [show x ^^^ 27#8 ^^^ (y ^^^ 27#8) = x ^^^ y ^^^ (27#8 ^^^ 27#8) by ac_rfl]; simp
  simp only [xtime, BitVec.getLsbD_xor, h]
  cases a.getLsbD 7 <;> cases b.getLsbD 7 <;> simp [hb] <;> ac_rfl

/-- What holds of 0 and of the eight bits and is kept by XOR holds of every Byte. -/
theorem byte_induction {P : Byte → Prop} (h0 : P 0) (hb : ∀ i : Fin 8, P (1 <<< i.val)) (hx : ∀ x y, P x → P y → P (x ^^^ y)) (a : Byte) : P a := by
  have e : ∀ a : Byte, a = gated (a.getLsbD 0) (1 <<< 0) ^^^ gated (a.getLsbD 1) (1 <<< 1) ^^^ gated (a.getLsbD 2) (1 <<< 2) ^^^ gated (a.getLsbD 3) (1 <<< 3) ^^^
     gated (a.getLsbD 4) (1 <<< 4) ^^^ gated (a.getLsbD 5) (1 <<< 5) ^^^ gated (a.getLsbD 6) (1 <<< 6) ^^^ gated (a.getLsbD 7) (1 <<< 7) := by decide +kernel
  rw [e a]
  have g (c : Bool) (i : Fin 8) : P (gated c (1 <<< i.val)) := by cases c; exact h0; exact hb i
  exact hx _ _ (hx _ _ (hx _ _ (hx _ _ (hx _ _ (hx _ _ (hx _ _ (g _ 0) (g _ 1)) (g _ 2)) (g _ 3)) (g _ 4)) (g _ 5)) (g _ 6)) (g _ 7)

/-- The n-th power of a, by repeated multiplication on the right, as the search loop of ginv does it. -/
def gpow (a : Byte) : Nat → Byte
  | 0 => 1
  | n + 1 => gmul (gpow a n) a

/-- The search finds an inverse if a power of a that it reaches is 1 (40_field_arithmetic.md R114). -/
theorem ginvLoop_spec (a : Byte) : ∀ fuel k, (∃ j, k ≤ j ∧ j < k + fuel ∧ gpow a (j + 1) = 1) → gmul (ginvLoop a fuel (gpow a k)) a = 1 := by
  intro fuel
  induction fuel with
  | zero => rintro k ⟨j, h1, h2, _⟩; omega
  | succ f ih =>
    rintro k ⟨j, h1, h2, h3⟩
    unfold ginvLoop
    split
    · assumption
    · rename_i hne
      apply ih (k + 1)
      refine ⟨j, ?_, by omega, h3⟩
      by_contra hc
      have : j = k := by omega
      subst this; exact hne h3

end Sys2Proof.Machine
end

