-- ==== Sys2Proof/Laws/State.lean ====
section
/-! SUPPORT. One lemma per field of State for each shared update, true by unfolding, so that no later proof unfolds a record
update. -/

namespace Sys2Proof.Machine

@[simp] theorem issue_ga (w : Word) (s : State) : (issue w s).ga = s.ga := rfl
@[simp] theorem issue_gb (w : Word) (s : State) : (issue w s).gb = s.gb := rfl
@[simp] theorem issue_gr (w : Word) (s : State) : (issue w s).gr = s.gr := rfl
@[simp] theorem issue_key (w : Word) (s : State) : (issue w s).key = s.key := rfl
@[simp] theorem issue_din (w : Word) (s : State) : (issue w s).din = s.din := rfl
@[simp] theorem issue_dout (w : Word) (s : State) : (issue w s).dout = s.dout := rfl
@[simp] theorem issue_iv (w : Word) (s : State) : (issue w s).iv = s.iv := rfl
@[simp] theorem issue_chain (w : Word) (s : State) : (issue w s).chain = s.chain := rfl
@[simp] theorem issue_st (w : Word) (s : State) : (issue w s).st = s.st := rfl
@[simp] theorem issue_rk (w : Word) (s : State) : (issue w s).rk = s.rk := rfl
@[simp] theorem issue_rkValid (w : Word) (s : State) : (issue w s).rkValid = s.rkValid := rfl
@[simp] theorem issue_sboxReady (w : Word) (s : State) : (issue w s).sboxReady = s.sboxReady := rfl
@[simp] theorem issue_mode (w : Word) (s : State) : (issue w s).mode = s.mode := rfl
@[simp] theorem issue_cmdLast (w : Word) (s : State) : (issue w s).cmdLast = w := rfl
@[simp] theorem issue_pending (w : Word) (s : State) : (issue w s).pending = some w := rfl
@[simp] theorem issue_done (w : Word) (s : State) : (issue w s).done = false := rfl
@[simp] theorem issue_errcode (w : Word) (s : State) : (issue w s).errcode = .ok := rfl
@[simp] theorem issue_ovr (w : Word) (s : State) : (issue w s).ovr = s.ovr := rfl
@[simp] theorem issue_rngDraws (w : Word) (s : State) : (issue w s).rngDraws = s.rngDraws := rfl
@[simp] theorem issue_inputs (w : Word) (s : State) : (issue w s).inputs = s.inputs := rfl
@[simp] theorem issue_busLog (w : Word) (s : State) : (issue w s).busLog = s.busLog := rfl

@[simp] theorem completeWith_ga (c : ErrCode) (s : State) : (completeWith c s).ga = s.ga := rfl
@[simp] theorem completeWith_gb (c : ErrCode) (s : State) : (completeWith c s).gb = s.gb := rfl
@[simp] theorem completeWith_gr (c : ErrCode) (s : State) : (completeWith c s).gr = s.gr := rfl
@[simp] theorem completeWith_key (c : ErrCode) (s : State) : (completeWith c s).key = s.key := rfl
@[simp] theorem completeWith_din (c : ErrCode) (s : State) : (completeWith c s).din = s.din := rfl
@[simp] theorem completeWith_dout (c : ErrCode) (s : State) : (completeWith c s).dout = s.dout := rfl
@[simp] theorem completeWith_iv (c : ErrCode) (s : State) : (completeWith c s).iv = s.iv := rfl
@[simp] theorem completeWith_chain (c : ErrCode) (s : State) : (completeWith c s).chain = s.chain := rfl
@[simp] theorem completeWith_st (c : ErrCode) (s : State) : (completeWith c s).st = s.st := rfl
@[simp] theorem completeWith_rk (c : ErrCode) (s : State) : (completeWith c s).rk = s.rk := rfl
@[simp] theorem completeWith_rkValid (c : ErrCode) (s : State) : (completeWith c s).rkValid = s.rkValid := rfl
@[simp] theorem completeWith_sboxReady (c : ErrCode) (s : State) : (completeWith c s).sboxReady = s.sboxReady := rfl
@[simp] theorem completeWith_mode (c : ErrCode) (s : State) : (completeWith c s).mode = s.mode := rfl
@[simp] theorem completeWith_cmdLast (c : ErrCode) (s : State) : (completeWith c s).cmdLast = s.cmdLast := rfl
@[simp] theorem completeWith_pending (c : ErrCode) (s : State) : (completeWith c s).pending = none := rfl
@[simp] theorem completeWith_done (c : ErrCode) (s : State) : (completeWith c s).done = true := rfl
@[simp] theorem completeWith_errcode (c : ErrCode) (s : State) : (completeWith c s).errcode = c := rfl
@[simp] theorem completeWith_ovr (c : ErrCode) (s : State) : (completeWith c s).ovr = s.ovr := rfl
@[simp] theorem completeWith_rngDraws (c : ErrCode) (s : State) : (completeWith c s).rngDraws = s.rngDraws := rfl
@[simp] theorem completeWith_inputs (c : ErrCode) (s : State) : (completeWith c s).inputs = s.inputs := rfl
@[simp] theorem completeWith_busLog (c : ErrCode) (s : State) : (completeWith c s).busLog = s.busLog := rfl

@[simp] theorem expandKey_ga (s : State) : (expandKey s).ga = s.ga := rfl
@[simp] theorem expandKey_gb (s : State) : (expandKey s).gb = s.gb := rfl
@[simp] theorem expandKey_gr (s : State) : (expandKey s).gr = s.gr := rfl
@[simp] theorem expandKey_key (s : State) : (expandKey s).key = s.key := rfl
@[simp] theorem expandKey_din (s : State) : (expandKey s).din = s.din := rfl
@[simp] theorem expandKey_dout (s : State) : (expandKey s).dout = s.dout := rfl
@[simp] theorem expandKey_iv (s : State) : (expandKey s).iv = s.iv := rfl
@[simp] theorem expandKey_chain (s : State) : (expandKey s).chain = s.chain := rfl
@[simp] theorem expandKey_st (s : State) : (expandKey s).st = s.st := rfl
@[simp] theorem expandKey_rk (s : State) : (expandKey s).rk = keySchedule (decodeBlock s.key) := rfl
@[simp] theorem expandKey_rkValid (s : State) : (expandKey s).rkValid = true := rfl
@[simp] theorem expandKey_sboxReady (s : State) : (expandKey s).sboxReady = s.sboxReady := rfl
@[simp] theorem expandKey_mode (s : State) : (expandKey s).mode = s.mode := rfl
@[simp] theorem expandKey_cmdLast (s : State) : (expandKey s).cmdLast = s.cmdLast := rfl
@[simp] theorem expandKey_pending (s : State) : (expandKey s).pending = s.pending := rfl
@[simp] theorem expandKey_done (s : State) : (expandKey s).done = s.done := rfl
@[simp] theorem expandKey_errcode (s : State) : (expandKey s).errcode = s.errcode := rfl
@[simp] theorem expandKey_ovr (s : State) : (expandKey s).ovr = s.ovr := rfl
@[simp] theorem expandKey_rngDraws (s : State) : (expandKey s).rngDraws = s.rngDraws := rfl
@[simp] theorem expandKey_inputs (s : State) : (expandKey s).inputs = s.inputs := rfl
@[simp] theorem expandKey_busLog (s : State) : (expandKey s).busLog = s.busLog := rfl

@[simp] theorem endBuild_ga (s : State) : (endBuild s).ga = s.ga := rfl
@[simp] theorem endBuild_gb (s : State) : (endBuild s).gb = s.gb := rfl
@[simp] theorem endBuild_gr (s : State) : (endBuild s).gr = s.gr := rfl
@[simp] theorem endBuild_key (s : State) : (endBuild s).key = s.key := rfl
@[simp] theorem endBuild_din (s : State) : (endBuild s).din = s.din := rfl
@[simp] theorem endBuild_dout (s : State) : (endBuild s).dout = s.dout := rfl
@[simp] theorem endBuild_iv (s : State) : (endBuild s).iv = s.iv := rfl
@[simp] theorem endBuild_chain (s : State) : (endBuild s).chain = s.chain := rfl
@[simp] theorem endBuild_st (s : State) : (endBuild s).st = s.st := rfl
@[simp] theorem endBuild_rk (s : State) : (endBuild s).rk = s.rk := rfl
@[simp] theorem endBuild_rkValid (s : State) : (endBuild s).rkValid = s.rkValid := rfl
@[simp] theorem endBuild_sboxReady (s : State) : (endBuild s).sboxReady = true := rfl
@[simp] theorem endBuild_mode (s : State) : (endBuild s).mode = s.mode := rfl
@[simp] theorem endBuild_cmdLast (s : State) : (endBuild s).cmdLast = s.cmdLast := rfl
@[simp] theorem endBuild_pending (s : State) : (endBuild s).pending = s.pending := rfl
@[simp] theorem endBuild_done (s : State) : (endBuild s).done = s.done := rfl
@[simp] theorem endBuild_errcode (s : State) : (endBuild s).errcode = s.errcode := rfl
@[simp] theorem endBuild_ovr (s : State) : (endBuild s).ovr = s.ovr := rfl
@[simp] theorem endBuild_rngDraws (s : State) : (endBuild s).rngDraws = s.rngDraws := rfl
@[simp] theorem endBuild_inputs (s : State) : (endBuild s).inputs = s.inputs := rfl
@[simp] theorem endBuild_busLog (s : State) : (endBuild s).busLog = s.busLog := rfl

@[simp] theorem countDraw_ga (s : State) : (countDraw s).ga = s.ga := rfl
@[simp] theorem countDraw_gb (s : State) : (countDraw s).gb = s.gb := rfl
@[simp] theorem countDraw_gr (s : State) : (countDraw s).gr = s.gr := rfl
@[simp] theorem countDraw_key (s : State) : (countDraw s).key = s.key := rfl
@[simp] theorem countDraw_din (s : State) : (countDraw s).din = s.din := rfl
@[simp] theorem countDraw_dout (s : State) : (countDraw s).dout = s.dout := rfl
@[simp] theorem countDraw_iv (s : State) : (countDraw s).iv = s.iv := rfl
@[simp] theorem countDraw_chain (s : State) : (countDraw s).chain = s.chain := rfl
@[simp] theorem countDraw_st (s : State) : (countDraw s).st = s.st := rfl
@[simp] theorem countDraw_rk (s : State) : (countDraw s).rk = s.rk := rfl
@[simp] theorem countDraw_rkValid (s : State) : (countDraw s).rkValid = s.rkValid := rfl
@[simp] theorem countDraw_sboxReady (s : State) : (countDraw s).sboxReady = s.sboxReady := rfl
@[simp] theorem countDraw_mode (s : State) : (countDraw s).mode = s.mode := rfl
@[simp] theorem countDraw_cmdLast (s : State) : (countDraw s).cmdLast = s.cmdLast := rfl
@[simp] theorem countDraw_pending (s : State) : (countDraw s).pending = s.pending := rfl
@[simp] theorem countDraw_done (s : State) : (countDraw s).done = s.done := rfl
@[simp] theorem countDraw_errcode (s : State) : (countDraw s).errcode = s.errcode := rfl
@[simp] theorem countDraw_ovr (s : State) : (countDraw s).ovr = s.ovr := rfl
@[simp] theorem countDraw_rngDraws (s : State) : (countDraw s).rngDraws = s.rngDraws + 1 := rfl
@[simp] theorem countDraw_inputs (s : State) : (countDraw s).inputs = s.inputs := rfl
@[simp] theorem countDraw_busLog (s : State) : (countDraw s).busLog = s.busLog := rfl

@[simp] theorem setInputs_setInputs (es fs : List Event) (s : State) : setInputs es (setInputs fs s) = setInputs es s := rfl
@[simp] theorem setInputs_self (s : State) : setInputs s.inputs s = s := rfl
@[simp] theorem busy_setInputs (es : List Event) (s : State) : busy (setInputs es s) = busy s := rfl
@[simp] theorem building_setInputs (es : List Event) (s : State) : building (setInputs es s) = building s := rfl

@[simp] theorem setInputs_ga (es : List Event) (s : State) : (setInputs es s).ga = s.ga := rfl
@[simp] theorem setInputs_gb (es : List Event) (s : State) : (setInputs es s).gb = s.gb := rfl
@[simp] theorem setInputs_gr (es : List Event) (s : State) : (setInputs es s).gr = s.gr := rfl
@[simp] theorem setInputs_key (es : List Event) (s : State) : (setInputs es s).key = s.key := rfl
@[simp] theorem setInputs_din (es : List Event) (s : State) : (setInputs es s).din = s.din := rfl
@[simp] theorem setInputs_dout (es : List Event) (s : State) : (setInputs es s).dout = s.dout := rfl
@[simp] theorem setInputs_iv (es : List Event) (s : State) : (setInputs es s).iv = s.iv := rfl
@[simp] theorem setInputs_chain (es : List Event) (s : State) : (setInputs es s).chain = s.chain := rfl
@[simp] theorem setInputs_st (es : List Event) (s : State) : (setInputs es s).st = s.st := rfl
@[simp] theorem setInputs_rk (es : List Event) (s : State) : (setInputs es s).rk = s.rk := rfl
@[simp] theorem setInputs_rkValid (es : List Event) (s : State) : (setInputs es s).rkValid = s.rkValid := rfl
@[simp] theorem setInputs_sboxReady (es : List Event) (s : State) : (setInputs es s).sboxReady = s.sboxReady := rfl
@[simp] theorem setInputs_mode (es : List Event) (s : State) : (setInputs es s).mode = s.mode := rfl
@[simp] theorem setInputs_cmdLast (es : List Event) (s : State) : (setInputs es s).cmdLast = s.cmdLast := rfl
@[simp] theorem setInputs_pending (es : List Event) (s : State) : (setInputs es s).pending = s.pending := rfl
@[simp] theorem setInputs_done (es : List Event) (s : State) : (setInputs es s).done = s.done := rfl
@[simp] theorem setInputs_errcode (es : List Event) (s : State) : (setInputs es s).errcode = s.errcode := rfl
@[simp] theorem setInputs_ovr (es : List Event) (s : State) : (setInputs es s).ovr = s.ovr := rfl
@[simp] theorem setInputs_rngDraws (es : List Event) (s : State) : (setInputs es s).rngDraws = s.rngDraws := rfl
@[simp] theorem setInputs_inputs (es : List Event) (s : State) : (setInputs es s).inputs = es := rfl
@[simp] theorem setInputs_busLog (es : List Event) (s : State) : (setInputs es s).busLog = s.busLog := rfl

@[simp] theorem logged_ga (r : BusRecord) (s : State) : (logged r s).ga = s.ga := rfl
@[simp] theorem logged_gb (r : BusRecord) (s : State) : (logged r s).gb = s.gb := rfl
@[simp] theorem logged_gr (r : BusRecord) (s : State) : (logged r s).gr = s.gr := rfl
@[simp] theorem logged_key (r : BusRecord) (s : State) : (logged r s).key = s.key := rfl
@[simp] theorem logged_din (r : BusRecord) (s : State) : (logged r s).din = s.din := rfl
@[simp] theorem logged_dout (r : BusRecord) (s : State) : (logged r s).dout = s.dout := rfl
@[simp] theorem logged_iv (r : BusRecord) (s : State) : (logged r s).iv = s.iv := rfl
@[simp] theorem logged_chain (r : BusRecord) (s : State) : (logged r s).chain = s.chain := rfl
@[simp] theorem logged_st (r : BusRecord) (s : State) : (logged r s).st = s.st := rfl
@[simp] theorem logged_rk (r : BusRecord) (s : State) : (logged r s).rk = s.rk := rfl
@[simp] theorem logged_rkValid (r : BusRecord) (s : State) : (logged r s).rkValid = s.rkValid := rfl
@[simp] theorem logged_sboxReady (r : BusRecord) (s : State) : (logged r s).sboxReady = s.sboxReady := rfl
@[simp] theorem logged_mode (r : BusRecord) (s : State) : (logged r s).mode = s.mode := rfl
@[simp] theorem logged_cmdLast (r : BusRecord) (s : State) : (logged r s).cmdLast = s.cmdLast := rfl
@[simp] theorem logged_pending (r : BusRecord) (s : State) : (logged r s).pending = s.pending := rfl
@[simp] theorem logged_done (r : BusRecord) (s : State) : (logged r s).done = s.done := rfl
@[simp] theorem logged_errcode (r : BusRecord) (s : State) : (logged r s).errcode = s.errcode := rfl
@[simp] theorem logged_ovr (r : BusRecord) (s : State) : (logged r s).ovr = s.ovr := rfl
@[simp] theorem logged_rngDraws (r : BusRecord) (s : State) : (logged r s).rngDraws = s.rngDraws := rfl
@[simp] theorem logged_inputs (r : BusRecord) (s : State) : (logged r s).inputs = s.inputs := rfl
@[simp] theorem logged_busLog (r : BusRecord) (s : State) : (logged r s).busLog = r :: s.busLog := rfl

/-- The completion of a success, as the statements write it. -/
@[simp] theorem completeWith_ok (s : State) : completeWith .ok s = doneWith s := rfl

/-- The completion of a failure, as the statements write it. -/
theorem completeWith_eq_failedWith (c : ErrCode) (s : State) : completeWith c s = failedWith c s := rfl

@[simp] theorem doneWith_ga (s : State) : (doneWith s).ga = s.ga := rfl
@[simp] theorem doneWith_gb (s : State) : (doneWith s).gb = s.gb := rfl
@[simp] theorem doneWith_gr (s : State) : (doneWith s).gr = s.gr := rfl
@[simp] theorem doneWith_key (s : State) : (doneWith s).key = s.key := rfl
@[simp] theorem doneWith_din (s : State) : (doneWith s).din = s.din := rfl
@[simp] theorem doneWith_dout (s : State) : (doneWith s).dout = s.dout := rfl
@[simp] theorem doneWith_iv (s : State) : (doneWith s).iv = s.iv := rfl
@[simp] theorem doneWith_chain (s : State) : (doneWith s).chain = s.chain := rfl
@[simp] theorem doneWith_st (s : State) : (doneWith s).st = s.st := rfl
@[simp] theorem doneWith_rk (s : State) : (doneWith s).rk = s.rk := rfl
@[simp] theorem doneWith_rkValid (s : State) : (doneWith s).rkValid = s.rkValid := rfl
@[simp] theorem doneWith_sboxReady (s : State) : (doneWith s).sboxReady = s.sboxReady := rfl
@[simp] theorem doneWith_mode (s : State) : (doneWith s).mode = s.mode := rfl
@[simp] theorem doneWith_cmdLast (s : State) : (doneWith s).cmdLast = s.cmdLast := rfl
@[simp] theorem doneWith_pending (s : State) : (doneWith s).pending = none := rfl
@[simp] theorem doneWith_done (s : State) : (doneWith s).done = true := rfl
@[simp] theorem doneWith_errcode (s : State) : (doneWith s).errcode = .ok := rfl
@[simp] theorem doneWith_ovr (s : State) : (doneWith s).ovr = s.ovr := rfl
@[simp] theorem doneWith_rngDraws (s : State) : (doneWith s).rngDraws = s.rngDraws := rfl
@[simp] theorem doneWith_inputs (s : State) : (doneWith s).inputs = s.inputs := rfl
@[simp] theorem doneWith_busLog (s : State) : (doneWith s).busLog = s.busLog := rfl

@[simp] theorem failedWith_ga (c : ErrCode) (s : State) : (failedWith c s).ga = s.ga := rfl
@[simp] theorem failedWith_gb (c : ErrCode) (s : State) : (failedWith c s).gb = s.gb := rfl
@[simp] theorem failedWith_gr (c : ErrCode) (s : State) : (failedWith c s).gr = s.gr := rfl
@[simp] theorem failedWith_key (c : ErrCode) (s : State) : (failedWith c s).key = s.key := rfl
@[simp] theorem failedWith_din (c : ErrCode) (s : State) : (failedWith c s).din = s.din := rfl
@[simp] theorem failedWith_dout (c : ErrCode) (s : State) : (failedWith c s).dout = s.dout := rfl
@[simp] theorem failedWith_iv (c : ErrCode) (s : State) : (failedWith c s).iv = s.iv := rfl
@[simp] theorem failedWith_chain (c : ErrCode) (s : State) : (failedWith c s).chain = s.chain := rfl
@[simp] theorem failedWith_st (c : ErrCode) (s : State) : (failedWith c s).st = s.st := rfl
@[simp] theorem failedWith_rk (c : ErrCode) (s : State) : (failedWith c s).rk = s.rk := rfl
@[simp] theorem failedWith_rkValid (c : ErrCode) (s : State) : (failedWith c s).rkValid = s.rkValid := rfl
@[simp] theorem failedWith_sboxReady (c : ErrCode) (s : State) : (failedWith c s).sboxReady = s.sboxReady := rfl
@[simp] theorem failedWith_mode (c : ErrCode) (s : State) : (failedWith c s).mode = s.mode := rfl
@[simp] theorem failedWith_cmdLast (c : ErrCode) (s : State) : (failedWith c s).cmdLast = s.cmdLast := rfl
@[simp] theorem failedWith_pending (c : ErrCode) (s : State) : (failedWith c s).pending = none := rfl
@[simp] theorem failedWith_done (c : ErrCode) (s : State) : (failedWith c s).done = true := rfl
@[simp] theorem failedWith_errcode (c : ErrCode) (s : State) : (failedWith c s).errcode = c := rfl
@[simp] theorem failedWith_ovr (c : ErrCode) (s : State) : (failedWith c s).ovr = s.ovr := rfl
@[simp] theorem failedWith_rngDraws (c : ErrCode) (s : State) : (failedWith c s).rngDraws = s.rngDraws := rfl
@[simp] theorem failedWith_inputs (c : ErrCode) (s : State) : (failedWith c s).inputs = s.inputs := rfl
@[simp] theorem failedWith_busLog (c : ErrCode) (s : State) : (failedWith c s).busLog = s.busLog := rfl

/-- What the reset step keeps of the state before it: only what belongs to the outside (70_reset_and_hazards.md R310). -/
theorem resetStep_eq (s : State) :
    resetStep s =
      { State.reset with sboxReady := false, rngDraws := s.rngDraws, inputs := s.inputs, busLog := s.busLog } := rfl

end Sys2Proof.Machine
end

