-- ==== Sys2Proof/Laws/Ops.lean ====
section
/-! SUPPORT. One lemma per shared operation, which says once everything it can do: the window, the turns, the meanings, and
the step. -/

namespace Sys2Proof.Machine

/-! ## The window -/

/-- The offset of an address given relative to CORE_BASE (20_memory.md R50). -/
@[simp] theorem windowOffset_base (off : Nat) :
    windowOffset (Config.coreBase + off) = if off < 4096 then some off else none := by
  unfold windowOffset
  by_cases h : off < 4096
  · rw [if_pos ⟨by omega, by omega⟩, if_pos h]; congr 1; omega
  · rw [if_neg (by omega), if_neg h]

/-- An address inside the window has an offset below 4096 (20_memory.md R50). -/
theorem windowOffset_some {addr off : Nat} (h : windowOffset addr = some off) :
    off < 4096 ∧ addr = Config.coreBase + off := by
  unfold windowOffset at h
  split at h
  · injection h with h; omega
  · cases h

theorem regionOf_cmd : regionOf 0x000 = .cmd := rfl
theorem regionOf_status : regionOf 0x004 = .status := rfl
theorem regionOf_gf : regionOf 0x008 = .gf := rfl
theorem regionOf_key (k : Fin 4) : regionOf (0x010 + 4 * k.val) = .key k := by revert k; decide
theorem regionOf_din (k : Fin 4) : regionOf (0x020 + 4 * k.val) = .din k := by revert k; decide
theorem regionOf_dout (k : Fin 4) : regionOf (0x030 + 4 * k.val) = .dout k := by revert k; decide
theorem regionOf_iv (k : Fin 4) : regionOf (0x040 + 4 * k.val) = .iv k := by revert k; decide
theorem regionOf_chain (k : Fin 4) : regionOf (0x050 + 4 * k.val) = .chain k := by revert k; decide
theorem regionOf_sbox (k : Fin 64) : regionOf (0x100 + 4 * k.val) = .sbox k := by revert k; decide
theorem regionOf_invSbox (k : Fin 64) : regionOf (0x200 + 4 * k.val) = .invSbox k := by revert k; decide
theorem regionOf_rk (n : Fin 11) (k : Fin 4) : regionOf (0x300 + 16 * n.val + 4 * k.val) = .rk n k := by
  revert n k; decide

/-- Every offset lies in one row of the register map (20_memory.md R54). -/
theorem regionOf_cases (off : Nat) :
    (off < 0x004 ∧ regionOf off = .cmd) ∨ (0x004 ≤ off ∧ off < 0x008 ∧ regionOf off = .status) ∨
    (0x008 ≤ off ∧ off < 0x00C ∧ regionOf off = .gf) ∨
    (0x010 ≤ off ∧ off < 0x020 ∧ regionOf off = .key (wordIn16 off)) ∨
    (0x020 ≤ off ∧ off < 0x030 ∧ regionOf off = .din (wordIn16 off)) ∨
    (0x030 ≤ off ∧ off < 0x040 ∧ regionOf off = .dout (wordIn16 off)) ∨
    (0x040 ≤ off ∧ off < 0x050 ∧ regionOf off = .iv (wordIn16 off)) ∨
    (0x050 ≤ off ∧ off < 0x060 ∧ regionOf off = .chain (wordIn16 off)) ∨
    (0x100 ≤ off ∧ off < 0x200 ∧ regionOf off = .sbox (wordIn256 off)) ∨
    (0x200 ≤ off ∧ off < 0x300 ∧ regionOf off = .invSbox (wordIn256 off)) ∨
    (0x300 ≤ off ∧ off < 0x3B0 ∧ ∃ n, regionOf off = .rk n (wordIn16 off)) ∨
    ((0x00C ≤ off ∧ off < 0x010 ∨ 0x060 ≤ off ∧ off < 0x100 ∨ 0x3B0 ≤ off) ∧ regionOf off = .reserved) := by
  unfold regionOf
  by_cases h0 : off < 0x4
  · simp only [if_pos h0]
    exact .inl ⟨by omega, by trivial⟩
  simp only [if_neg h0]
  by_cases h1 : off < 0x8
  · simp only [if_pos h1]
    exact .inr (.inl ⟨by omega, by omega, by trivial⟩)
  simp only [if_neg h1]
  by_cases h2 : off < 0xc
  · simp only [if_pos h2]
    exact .inr (.inr (.inl ⟨by omega, by omega, by trivial⟩))
  simp only [if_neg h2]
  by_cases h3 : off < 0x10
  · simp only [if_pos h3]
    exact .inr (.inr (.inr (.inr (.inr (.inr (.inr (.inr (.inr (.inr (.inr (⟨by omega, by trivial⟩)))))))))))
  simp only [if_neg h3]
  by_cases h4 : off < 0x20
  · simp only [if_pos h4]
    exact .inr (.inr (.inr (.inl ⟨by omega, by omega, by trivial⟩)))
  simp only [if_neg h4]
  by_cases h5 : off < 0x30
  · simp only [if_pos h5]
    exact .inr (.inr (.inr (.inr (.inl ⟨by omega, by omega, by trivial⟩))))
  simp only [if_neg h5]
  by_cases h6 : off < 0x40
  · simp only [if_pos h6]
    exact .inr (.inr (.inr (.inr (.inr (.inl ⟨by omega, by omega, by trivial⟩)))))
  simp only [if_neg h6]
  by_cases h7 : off < 0x50
  · simp only [if_pos h7]
    exact .inr (.inr (.inr (.inr (.inr (.inr (.inl ⟨by omega, by omega, by trivial⟩))))))
  simp only [if_neg h7]
  by_cases h8 : off < 0x60
  · simp only [if_pos h8]
    exact .inr (.inr (.inr (.inr (.inr (.inr (.inr (.inl ⟨by omega, by omega, by trivial⟩)))))))
  simp only [if_neg h8]
  by_cases h9 : off < 0x100
  · simp only [if_pos h9]
    exact .inr (.inr (.inr (.inr (.inr (.inr (.inr (.inr (.inr (.inr (.inr (⟨by omega, by trivial⟩)))))))))))
  simp only [if_neg h9]
  by_cases h10 : off < 0x200
  · simp only [if_pos h10]
    exact .inr (.inr (.inr (.inr (.inr (.inr (.inr (.inr (.inl ⟨by omega, by omega, by trivial⟩))))))))
  simp only [if_neg h10]
  by_cases h11 : off < 0x300
  · simp only [if_pos h11]
    exact .inr (.inr (.inr (.inr (.inr (.inr (.inr (.inr (.inr (.inl ⟨by omega, by omega, by trivial⟩)))))))))
  simp only [if_neg h11]
  by_cases h12 : off < 0x3b0
  · simp only [dif_pos h12]
    exact .inr (.inr (.inr (.inr (.inr (.inr (.inr (.inr (.inr (.inr (.inl ⟨by omega, by omega, _, by trivial⟩))))))))))
  simp only [dif_neg h12]
  exact .inr (.inr (.inr (.inr (.inr (.inr (.inr (.inr (.inr (.inr (.inr (⟨by omega, by trivial⟩)))))))))))

/-- What a window write can do to the elements that the host cannot write (10_state.md R22, R25 to R33). -/
theorem windowWrite_keeps (off : Nat) (w : Word) (s : State) :
    (windowWrite off w s).gr = s.gr ∧ (windowWrite off w s).dout = s.dout ∧ (windowWrite off w s).chain = s.chain ∧
    (windowWrite off w s).st = s.st ∧ (windowWrite off w s).rk = s.rk ∧ (windowWrite off w s).mode = s.mode ∧
    (windowWrite off w s).sboxReady = s.sboxReady ∧ (windowWrite off w s).rngDraws = s.rngDraws ∧
    (windowWrite off w s).inputs = s.inputs ∧ (windowWrite off w s).busLog = s.busLog := by
  unfold windowWrite
  split
  case h_2 => unfold statusWrite; split <;> simp
  all_goals simp

/-- A window write does not look at the events still to come. -/
theorem windowWrite_setInputs (off : Nat) (w : Word) (es : List Event) (s : State) :
    windowWrite off w (setInputs es s) = setInputs es (windowWrite off w s) := by
  unfold windowWrite
  split <;> try rfl
  unfold statusWrite; split <;> rfl

/-- Everything a host write that reaches the window can do. -/
theorem busWrite_cases (off size : Nat) (w : Word) (s : State) :
    (accepted off size = false ∧ busWrite off size w s = (.slverr, s)) ∨
    (accepted off size = true ∧ busy s = true ∧ busWrite off size w s = (.okay, { s with ovr := true })) ∨
    (accepted off size = true ∧ busy s = false ∧ busWrite off size w s = (.okay, windowWrite off w s)) := by
  unfold busWrite
  cases accepted off size <;> cases busy s <;> simp

/-- Everything a host access can do. -/
theorem hostAccess_next {a : Access} {s t : State} (h : hostAccess a s = .next t) :
    ∃ off, windowOffset a.addr = some off ∧ t = windowAccess off a.size a.op s := by
  unfold hostAccess at h
  split at h
  · cases h
  · rename_i off ho; injection h with h; exact ⟨off, ho, h.symm⟩

/-! ## Turns -/

@[simp] theorem takeTurn_nil {s : State} (h : s.inputs = []) : takeTurn s = (.core, s) := by simp [takeTurn, h]

@[simp] theorem takeTurn_cons {s : State} {e : Event} {rest : List Event} (h : s.inputs = e :: rest) :
    takeTurn s = (e, (setInputs rest s)) := by simp [takeTurn, h]

/-- The core's turn leaves the tail of the events. -/
theorem takeTurn_core {s : State} (h : CoreTurn s) : takeTurn s = (.core, (setInputs s.inputs.tail s)) := by
  cases hs : s.inputs with
  | nil =>
    have : setInputs [] s = s := by rw [← hs]; rfl
    simp [takeTurn_nil hs, this]
  | cons e rest =>
    rcases h with h | h
    · simp [hs] at h
    · simp [hs] at h; simp [takeTurn, hs, h]

theorem step_host {s : State} {a : Access} {rest : List Event} (h : s.inputs = .host a :: rest) :
    step s = hostAccess a (setInputs rest s) := by simp [step, takeTurn_cons h]

theorem step_reset {s : State} {rest : List Event} (h : s.inputs = .reset :: rest) :
    step s = .next (resetStep (setInputs rest s)) := by simp [step, takeTurn_cons h]

theorem step_core {s : State} (h : CoreTurn s) : step s = coreStep (setInputs s.inputs.tail s) := by
  simp only [step, takeTurn_core h]

theorem coreStep_build {s : State} (h : building s = true) : coreStep s = .next (endBuild s) := by
  simp [coreStep, coreWork, h]

theorem coreStep_idle {s : State} (h : building s = false) (hp : s.pending = none) : coreStep s = .next s := by
  simp [coreStep, coreWork, h, hp]

theorem coreStep_reject {s : State} {w : Word} {code : ErrCode} (h : building s = false) (hp : s.pending = some w)
    (hd : decodeCmd w = .error code) : coreStep s = .next (failedWith code s) := by
  simp [coreStep, coreWork, h, hp, hd, raiseCmdError, completeWith_eq_failedWith]

theorem coreStep_run {s : State} {w : Word} {i : Instr} (h : building s = false) (hp : s.pending = some w)
    (hd : decodeCmd w = .ok i) : coreStep s = exec i s := by
  simp [coreStep, coreWork, h, hp, hd]

/-! ## The meanings -/

/-- Everything a command's completion can do: it fails with a code and changes nothing else, or it commits a state in which
the elements no command writes are as before. -/
theorem exec_cases {i : Instr} {s t : State} (h : exec i s = .next t) :
    (∃ code, code ≠ .ok ∧ t = failedWith code s) ∨
    (∃ u, t = doneWith u ∧ u.key = s.key ∧ u.din = s.din ∧ u.ga = s.ga ∧ u.gb = s.gb ∧ u.cmdLast = s.cmdLast ∧
      u.sboxReady = s.sboxReady ∧ u.ovr = s.ovr ∧ u.inputs = s.inputs ∧ u.busLog = s.busLog ∧
      (writesRk i = false → u.rk = s.rk ∧ u.rkValid = s.rkValid) ∧
      (writesRk i = true → u.rk = keySchedule (decodeBlock s.key) ∧ u.rkValid = true)) := by
  cases i with
  | nop => exact .inr ⟨s, by cases h; rfl, by simp [writesRk]⟩
  | gfMul => exact .inr ⟨_, by cases h; rfl, by simp [writesRk]⟩
  | gfInv => exact .inr ⟨_, by cases h; rfl, by simp [writesRk]⟩
  | sboxFwd => exact .inr ⟨_, by cases h; rfl, by simp [writesRk]⟩
  | sboxInv => exact .inr ⟨_, by cases h; rfl, by simp [writesRk]⟩
  | loadState => exact .inr ⟨_, by cases h; rfl, by simp [writesRk]⟩
  | storeState => exact .inr ⟨_, by cases h; rfl, by simp [writesRk]⟩
  | subBytes => exact .inr ⟨_, by cases h; rfl, by simp [writesRk]⟩
  | invSubBytes => exact .inr ⟨_, by cases h; rfl, by simp [writesRk]⟩
  | shiftRows => exact .inr ⟨_, by cases h; rfl, by simp [writesRk]⟩
  | invShiftRows => exact .inr ⟨_, by cases h; rfl, by simp [writesRk]⟩
  | mixColumns => exact .inr ⟨_, by cases h; rfl, by simp [writesRk]⟩
  | invMixColumns => exact .inr ⟨_, by cases h; rfl, by simp [writesRk]⟩
  | keyExpand => exact .inr ⟨_, by cases h; rfl, by simp [writesRk]⟩
  | encryptBlock => exact .inr ⟨_, by cases h; rfl, by simp [writesRk]⟩
  | decryptBlock => exact .inr ⟨_, by cases h; rfl, by simp [writesRk]⟩
  | modeEnd => exact .inr ⟨_, by cases h; rfl, by simp [writesRk]⟩
  | addRoundKey idx =>
    simp only [exec, execAddRoundKey] at h
    split at h
    · cases h; exact .inl ⟨_, by decide, rfl⟩
    · split at h
      · cases h; exact .inr ⟨_, rfl, by simp [writesRk]⟩
      · cases h; exact .inl ⟨_, by decide, rfl⟩
  | modeStart m rng =>
    simp only [exec, execModeStart] at h
    split at h
    · cases h; exact .inl ⟨_, by decide, rfl⟩
    · cases h; exact .inr ⟨_, rfl, by cases rng <;> simp [writesRk, beginMessage, afterPrefix]⟩
  | modeBlock =>
    simp only [exec, execModeBlock] at h
    split at h
    · cases h; exact .inl ⟨_, by decide, rfl⟩
    · split at h
      · cases h; exact .inl ⟨_, by decide, rfl⟩
      · split at h <;> cases h
        · exact .inl ⟨_, by decide, rfl⟩
        · exact .inr ⟨_, rfl, by simp [writesRk, cbcEncStep]⟩
        · exact .inr ⟨_, rfl, by simp [writesRk, cbcDecStep]⟩
        · exact .inr ⟨_, rfl, by simp [writesRk, ctrStep]⟩

/-- Everything a step can do: a host access, a reset, or the core's own step in its four cases. -/
theorem step_cases {s t : State} (h : step s = .next t) :
    (∃ a rest off, s.inputs = .host a :: rest ∧ windowOffset a.addr = some off ∧
      t = windowAccess off a.size a.op (setInputs rest s)) ∨
    (∃ rest, s.inputs = .reset :: rest ∧ t = resetStep (setInputs rest s)) ∨
    (CoreTurn s ∧ building s = true ∧ t = endBuild (setInputs s.inputs.tail s)) ∨
    (CoreTurn s ∧ building s = false ∧ s.pending = none ∧ t = (setInputs s.inputs.tail s)) ∨
    (∃ w code, CoreTurn s ∧ building s = false ∧ s.pending = some w ∧ decodeCmd w = .error code ∧
      t = failedWith code (setInputs s.inputs.tail s)) ∨
    (∃ w i, CoreTurn s ∧ building s = false ∧ s.pending = some w ∧ decodeCmd w = .ok i ∧
      exec i (setInputs s.inputs.tail s) = .next t) := by
  by_cases hc : CoreTurn s
  · rw [step_core hc] at h
    refine .inr (.inr ?_)
    cases hb : building s with
    | true =>
      rw [coreStep_build (by simpa using hb)] at h
      exact .inl ⟨hc, rfl, by cases h; rfl⟩
    | false =>
      refine .inr ?_
      cases hp : s.pending with
      | none =>
        rw [coreStep_idle (by simpa using hb) (by simpa using hp)] at h
        exact .inl ⟨hc, rfl, rfl, by cases h; rfl⟩
      | some w =>
        refine .inr ?_
        cases hd : decodeCmd w with
        | error code =>
          rw [coreStep_reject (by simpa using hb) (by simpa using hp) hd] at h
          exact .inl ⟨w, code, hc, rfl, rfl, hd, by cases h; rfl⟩
        | ok i =>
          rw [coreStep_run (by simpa using hb) (by simpa using hp) hd] at h
          exact .inr ⟨w, i, hc, rfl, rfl, hd, h⟩
  · cases hs : s.inputs with
    | nil => exact absurd (.inl hs) hc
    | cons e rest =>
      cases e with
      | core => exact absurd (.inr (by simp [hs])) hc
      | reset =>
        rw [step_reset hs] at h
        exact .inr (.inl ⟨rest, rfl, by cases h; rfl⟩)
      | host a =>
        rw [step_host hs] at h
        obtain ⟨off, ho, ht⟩ := hostAccess_next h
        exact .inl ⟨a, rest, off, rfl, ho, ht⟩

end Sys2Proof.Machine
end

