-- ==== Sys2Proof/Laws/PerInstr.lean ====
section
/-! SUPPORT. What holds of every command as syntax, one lemma per constructor: the three fields of its encoding are its OP,
its ARG and RSV = 0 (30_encoding.md R80). -/

namespace Sys2Proof.Laws

/-- The fields of the encoded word (30_encoding.md R80, R83). -/
def EncodingFields.Statement (i : Instr) : Prop :=
  cmdOp (encode i) = i.opcode ∧ cmdArg (encode i) = i.arg ∧ cmdRsv (encode i) = 0

/-- The fields of any word laid out as RSV = 0, ARG, OP. -/
theorem EncodingFields.of_layout (i : Instr) : EncodingFields.Statement i := by
  refine ⟨?_, ?_, ?_⟩ <;> apply BitVec.eq_of_getLsbD_eq <;> intro n hn
  · have h32 : n < 32 := by omega
    simp [cmdOp, encode, hn, h32]
  · have h40 : 8 + n < 32 := by omega
    simp [cmdArg, encode, hn, h40]
  · have ha : i.arg.getLsbD (12 + n - 8) = false := BitVec.getLsbD_of_ge _ _ (by omega)
    have ho : i.opcode.getLsbD (12 + n) = false := BitVec.getLsbD_of_ge _ _ (by omega)
    simp [cmdRsv, encode, ha, ho]

theorem EncodingFields.nop : EncodingFields.Statement .nop := of_layout _
theorem EncodingFields.gfMul : EncodingFields.Statement .gfMul := of_layout _
theorem EncodingFields.gfInv : EncodingFields.Statement .gfInv := of_layout _
theorem EncodingFields.sboxFwd : EncodingFields.Statement .sboxFwd := of_layout _
theorem EncodingFields.sboxInv : EncodingFields.Statement .sboxInv := of_layout _
theorem EncodingFields.loadState : EncodingFields.Statement .loadState := of_layout _
theorem EncodingFields.storeState : EncodingFields.Statement .storeState := of_layout _
theorem EncodingFields.subBytes : EncodingFields.Statement .subBytes := of_layout _
theorem EncodingFields.invSubBytes : EncodingFields.Statement .invSubBytes := of_layout _
theorem EncodingFields.shiftRows : EncodingFields.Statement .shiftRows := of_layout _
theorem EncodingFields.invShiftRows : EncodingFields.Statement .invShiftRows := of_layout _
theorem EncodingFields.mixColumns : EncodingFields.Statement .mixColumns := of_layout _
theorem EncodingFields.invMixColumns : EncodingFields.Statement .invMixColumns := of_layout _
theorem EncodingFields.addRoundKey (idx : BitVec 4) : EncodingFields.Statement (.addRoundKey idx) := of_layout _
theorem EncodingFields.keyExpand : EncodingFields.Statement .keyExpand := of_layout _
theorem EncodingFields.encryptBlock : EncodingFields.Statement .encryptBlock := of_layout _
theorem EncodingFields.decryptBlock : EncodingFields.Statement .decryptBlock := of_layout _
theorem EncodingFields.modeStart (mode : StartMode) (rng : Bool) : EncodingFields.Statement (.modeStart mode rng) :=
  of_layout _
theorem EncodingFields.modeBlock : EncodingFields.Statement .modeBlock := of_layout _
theorem EncodingFields.modeEnd : EncodingFields.Statement .modeEnd := of_layout _

end Sys2Proof.Laws
end

