-- ==== Sys2Proof/Laws/Run.lean ====
section
/-! SUPPORT. What one turn of a host program does, how a program is shown to end, and what a command's meaning does not look
at. -/

namespace Sys2Proof.Machine

/-- A command neither reads nor writes the bookkeeping of other events (30_encoding.md R92, R93). -/
theorem exec_bookkeeping (i : Instr) (s t : State) (a : Word) (b : Option Word) (c : Bool) (d : ErrCode)
    (e : List BusRecord) (f : List Event) (h : exec i s = .next t) :
    exec i { s with cmdLast := a, pending := b, done := c, errcode := d, busLog := e, inputs := f } =
      .next { t with cmdLast := a, busLog := e, inputs := f } := by
  cases i
  case addRoundKey idx =>
    obtain ⟨ga, gb, gr, key, din, dout, iv, chain, st, rk, rkValid, sboxReady, mode, cmdLast, pending, done, errcode, ovr,
      rngDraws, inputs, busLog⟩ := s
    by_cases hi : idx.toNat < 11
    · cases rkValid
      · simp only [exec, execAddRoundKey, roundKeyOperand, hi, dite_true] at h ⊢
        cases h; rfl
      · simp only [exec, execAddRoundKey, roundKeyOperand, hi, dite_true] at h ⊢
        cases h; rfl
    · simp only [exec, execAddRoundKey, roundKeyOperand, hi, dite_false] at h ⊢
      cases h; rfl
  case modeStart m r =>
    simp only [exec, execModeStart] at h ⊢
    split at h
    · cases h; rw [if_pos ‹_›]; rfl
    · rw [if_neg ‹_›]; cases h; cases r <;> rfl
  case modeBlock =>
    obtain ⟨ga, gb, gr, key, din, dout, iv, chain, st, rk, rkValid, sboxReady, mode, cmdLast, pending, done, errcode, ovr,
      rngDraws, inputs, busLog⟩ := s
    cases mode <;> cases rkValid <;> cases h <;> rfl
  all_goals (cases h; rfl)

/-- Four word writes replace a Block (20_memory.md R55). -/
theorem setBlockWord_all (b c : Block) :
    setBlockWord (setBlockWord (setBlockWord (setBlockWord c 0 (blockWord b 0)) 1 (blockWord b 1)) 2 (blockWord b 2)) 3 (blockWord b 3) = b := by
  apply block_ext; intro i
  have h := fun k j => wordByte_blockWord b k j
  have h0 := h ⟨i.val/4, by omega⟩ ⟨i.val % 4, by omega⟩
  simp only [get_setBlockWord]
  have hb : b.get ⟨4 * (i.val / 4) + i.val % 4, by omega⟩ = b.get i := by congr 1; ext; simp; omega
  simp only [hb] at h0
  have : i.val / 4 = 0 ∨ i.val / 4 = 1 ∨ i.val / 4 = 2 ∨ i.val / 4 = 3 := by omega
  rcases this with e | e | e | e <;> simp only [e] at h0 ⊢ <;> simpa using h0

/-- Joining the four words of a Block gives the Block back (30_encoding.md R90). -/
theorem joinWords_blockWords (b : Block) :
    joinWords [blockWord b 0, blockWord b 1, blockWord b 2, blockWord b 3] = b := by
  apply block_ext; intro i
  have e (k j : Fin 4) (h : i.val = 4 * k.val + j.val) : wordByte (blockWord b k) j.val = b.get i := by
    rw [wordByte_blockWord]; congr 1; ext; exact h.symm
  have hi : i.val / 4 = 0 ∨ i.val / 4 = 1 ∨ i.val / 4 = 2 ∨ i.val / 4 = 3 := by omega
  simp only [joinWords, get_mkBlock]
  rcases hi with q | q | q | q <;> rw [q]
  · exact e 0 ⟨i.val % 4, by omega⟩ (by simp; omega)
  · exact e 1 ⟨i.val % 4, by omega⟩ (by simp; omega)
  · exact e 2 ⟨i.val % 4, by omega⟩ (by simp; omega)
  · exact e 3 ⟨i.val % 4, by omega⟩ (by simp; omega)

/-! ## One turn -/

theorem event_next {e : Event} {f : State → HostRun} {r : HostRun} {t : State} (h : step (setInputs [e] r.core) = .next t) :
    r.event e f = .next (f t) := by simp only [HostRun.event, h]

/-- A state with no other event to come. -/
theorem setInputs_nil {s : State} (h : s.inputs = []) (e : List Event) : setInputs [] (setInputs e s) = s := by
  show setInputs [] s = s
  rw [← h]; rfl

theorem step_word {s : State} {off : Nat} {op : BusOp} (ho : WordOffset off) (hi : s.inputs = []) :
    step (setInputs [.host ⟨Config.coreBase + off, 4, op⟩] s) = .next (windowAccess off 4 op s) := by
  have h : off < 4096 := ho.1
  rw [step_host rfl, setInputs_nil hi]
  simp only [hostAccess, windowOffset_base, h, if_true]

theorem busRead_word {off : Nat} (ho : WordOffset off) (s : State) : busRead off 4 s = (.okay, windowRead off s) := by
  simp [busRead, accepted, ho.2]

/-- A read turn: the word, recorded and logged. -/
theorem read_word {r : HostRun} {off : Nat} {go : Word → List HostOp} (ho : WordOffset off) (hi : r.core.inputs = []) :
    r.read off go =
      .next { r with todo := go (windowRead off r.core), words := windowRead off r.core :: r.words,
                     core := logged ⟨off, .read, .okay, windowRead off r.core⟩ r.core } := by
  unfold HostRun.read
  rw [busRead_word ho]
  refine (event_next (step_word ho hi)).trans ?_
  simp [windowAccess, busRead_word ho]

/-- A write turn while the core is not busy. -/
theorem hostTurn_wr {r : HostRun} {off : Nat} {w : Word} {rest : List HostOp} (ht : r.todo = .wr off w :: rest)
    (ho : WordOffset off) (hi : r.core.inputs = []) (hb : busy r.core = false) :
    r.hostTurn =
      .next { r with todo := rest, core := logged ⟨off, .write w, .okay, 0⟩ (windowWrite off w r.core) } := by
  simp only [HostRun.hostTurn, ht]
  refine (event_next (step_word ho hi)).trans ?_
  simp [windowAccess, busWrite, accepted, ho.2, hb]

/-- The core's turn is the core's own step. -/
theorem turn_core {r : HostRun} {t : State} (hi : r.core.inputs = []) (h : coreStep r.core = .next t) :
    r.turn .core = .next { r with core := t } := by
  refine event_next ?_
  rw [step_core (.inr rfl)]
  show coreStep (setInputs [] (setInputs [Event.core] r.core)) = _
  rw [setInputs_nil hi, h]

/-- The core has nothing to do. -/
theorem turn_core_idle {r : HostRun} (hi : r.core.inputs = []) (hr : Ready r.core) : r.turn .core = .next r :=
  turn_core hi (coreStep_idle (by simp [building, hr.2]) hr.1)

/-- STATUS.BUSY and STATUS.ERR as a host tests them (10_state.md R39). -/
theorem statusWord_busy (s : State) : (statusWord s).getLsbD 0 = busy s := by
  simp [statusWord, flagAt]

theorem statusWord_err (s : State) : (statusWord s).getLsbD 2 = errFlag s := by
  simp [statusWord, flagAt]

/-- A turn of RD. -/
theorem hostTurn_rd {r : HostRun} {off : Nat} {rest : List HostOp} (ht : r.todo = .rd off :: rest) (ho : WordOffset off)
    (hi : r.core.inputs = []) :
    r.hostTurn =
      .next { r with todo := rest, words := windowRead off r.core :: r.words,
                     core := logged ⟨off, .read, .okay, windowRead off r.core⟩ r.core } := by
  simp only [HostRun.hostTurn, ht]
  exact read_word ho hi

/-- A turn of WAIT: the loop goes on exactly while the core is busy. -/
theorem hostTurn_wait {r : HostRun} {rest : List HostOp} (ht : r.todo = .waitLoop :: rest) (hi : r.core.inputs = []) :
    r.hostTurn =
      .next { r with todo := if busy r.core then .waitLoop :: rest else rest, words := statusWord r.core :: r.words,
                     core := logged ⟨0x004, .read, .okay, statusWord r.core⟩ r.core } := by
  simp only [HostRun.hostTurn, ht]
  rw [read_word ⟨by omega, rfl⟩ hi, show windowRead 0x004 r.core = statusWord r.core from rfl, statusWord_busy]

/-! ## Ends of programs -/

/-- Nothing left to do, and the core idle. -/
theorem HostRun.EndsWith.nil {P : HostRun → Prop} {r : HostRun} (ht : r.todo = []) (hi : r.core.inputs = [])
    (hr : Ready r.core) (hp : P r) : r.EndsWith P := by
  have hrun : ∀ sched : List Agent, .reset ∉ sched → r.run sched = .next r := by
    intro sched
    induction sched with
    | nil => exact fun _ => rfl
    | cons a rest ih =>
      intro h
      simp only [List.mem_cons, not_or] at h
      cases a with
      | reset => exact absurd rfl h.1
      | core => simp only [HostRun.run, turn_core_idle hi hr, ih h.2]
      | host => simp only [HostRun.run, HostRun.turn, HostRun.hostTurn, ht, ih h.2]
  exact fun sched h => ⟨r, hrun sched h, fun _ => hp, [], r, by simp, rfl, ht⟩

/-- The host acts while the core is idle, however often the core's turn comes before. -/
theorem HostRun.EndsWith.host {P : HostRun → Prop} {r r' : HostRun} (ht : r.todo ≠ []) (hi : r.core.inputs = [])
    (hr : Ready r.core) (h : r.hostTurn = .next r') (hend : r'.EndsWith P) : r.EndsWith P := by
  intro sched
  induction sched with
  | nil =>
    obtain ⟨s, hs, -, more, e, hm, he, hd⟩ := hend [] (by simp)
    cases hs
    exact fun _ => ⟨r, rfl, fun h => absurd h ht, .host :: more, e, by simp [hm],
      by simp only [HostRun.run, HostRun.turn, h, he], hd⟩
  | cons a rest ih =>
    intro hn
    simp only [List.mem_cons, not_or] at hn
    cases a with
    | reset => exact absurd rfl hn.1
    | core => simp only [HostRun.run, turn_core_idle hi hr]; exact ih hn.2
    | host => simp only [HostRun.run, HostRun.turn, h]; exact hend rest hn.2

/-- WR while the core is idle. -/
theorem HostRun.EndsWith.wr {P : HostRun → Prop} {off : Nat} {w : Word} {rest : List HostOp} {ws : List Word}
    {bs : List Block} {s : State} (ho : WordOffset off) (hi : s.inputs = []) (hr : Ready s)
    (h : HostRun.EndsWith P ⟨rest, ws, bs, logged ⟨off, .write w, .okay, 0⟩ (windowWrite off w s)⟩) :
    HostRun.EndsWith P ⟨.wr off w :: rest, ws, bs, s⟩ :=
  .host (by simp) hi hr (hostTurn_wr rfl ho hi (by simp [busy, building, hr.1, hr.2])) h

/-- RD while the core is idle. -/
theorem HostRun.EndsWith.rd {P : HostRun → Prop} {off : Nat} {rest : List HostOp} {ws : List Word} {bs : List Block}
    {s : State} (ho : WordOffset off) (hi : s.inputs = []) (hr : Ready s)
    (h : HostRun.EndsWith P
      ⟨rest, windowRead off s :: ws, bs, logged ⟨off, .read, .okay, windowRead off s⟩ s⟩) :
    HostRun.EndsWith P ⟨.rd off :: rest, ws, bs, s⟩ :=
  .host (by simp) hi hr (hostTurn_rd rfl ho hi) h

/-- The end of RDB. -/
theorem HostRun.EndsWith.join {P : HostRun → Prop} {rest : List HostOp} {ws : List Word} {bs : List Block} {s : State}
    (hi : s.inputs = []) (hr : Ready s)
    (h : HostRun.EndsWith P ⟨rest, ws, bs ++ [joinWords (ws.take 4).reverse], s⟩) :
    HostRun.EndsWith P ⟨.join :: rest, ws, bs, s⟩ :=
  .host (by simp) hi hr rfl h

/-- A property of logs that a record which shows no ERR keeps: NoErrShown itself, or one that says nothing. -/
def KeptByGoodReads (G : List BusRecord → Prop) : Prop :=
  ∀ r log, (r.op = .read → r.off = 0x004 → r.data.getLsbD 2 = false) → G log → G (r :: log)

theorem keptByGoodReads_noErrShown : KeptByGoodReads NoErrShown := by
  intro r log h hl q hq
  rcases List.mem_cons.1 hq with rfl | hq
  · exact h
  · exact hl q hq

/-- A STATUS read of a state without an error code keeps it. -/
theorem KeptByGoodReads.status {G : List BusRecord → Prop} (hG : KeptByGoodReads G) {log : List BusRecord} {s : State}
    (hs : s.errcode = .ok) (hl : G log) : G (⟨0x004, .read, .okay, statusWord s⟩ :: log) :=
  hG _ _ (fun _ _ => by rw [statusWord_err]; simp [errFlag, hs, errBits]) hl

/-- WAIT while the core is idle: one read of STATUS. -/
theorem HostRun.EndsWith.waitIdle {P : HostRun → Prop} {rest : List HostOp} {ws : List Word} {bs : List Block} {s : State}
    (hi : s.inputs = []) (hr : Ready s)
    (h : HostRun.EndsWith P
      ⟨rest, statusWord s :: ws, bs, logged ⟨0x004, .read, .okay, statusWord s⟩ s⟩) :
    HostRun.EndsWith P ⟨.waitLoop :: rest, ws, bs, s⟩ := by
  refine .host (by simp) hi hr (hostTurn_wait rfl hi) ?_
  simpa [busy, building, hr.1, hr.2] using h

/-- The core completes the pending command of a run, whatever the log holds. -/
theorem turn_core_completes {r : HostRun} {i : Instr} {w : Word} {t : State} (log : List BusRecord)
    (hi : r.core.inputs = []) (hp : r.core.pending = some w) (hb : r.core.sboxReady = true) (hd : decodeCmd w = .ok i)
    (h : exec i { r.core with busLog := log } = .next t) :
    r.turn .core = .next { r with core := { t with busLog := r.core.busLog } } := by
  refine turn_core hi ((coreStep_run (by simp [building, hb]) hp hd).trans ?_)
  have hx := exec_bookkeeping i _ t r.core.cmdLast r.core.pending r.core.done r.core.errcode r.core.busLog r.core.inputs h
  have hk : t.inputs = r.core.inputs ∧ t.cmdLast = r.core.cmdLast := by
    rcases exec_cases h with ⟨c, _, rfl⟩ | ⟨u, rfl, _, _, _, _, h5, _, _, h8, _⟩
    · exact ⟨rfl, rfl⟩
    · exact ⟨h8, h5⟩
  rw [← hk.1, ← hk.2] at hx
  refine Eq.trans ?_ hx
  rw [hk.1, hk.2]

/-- WAIT while the command of w is pending: the host loops until the core has completed it, and goes on in the state the command
leaves, whatever its loop has added to the log and to the results. -/
theorem HostRun.EndsWith.wait {P : HostRun → Prop} {G : List BusRecord → Prop} (hG : KeptByGoodReads G) {i : Instr}
    {w : Word} {rest : List HostOp} {bs : List Block} {s t : State} (hi : s.inputs = []) (hp : s.pending = some w)
    (hb : s.sboxReady = true) (hd : decodeCmd w = .ok i) (he : s.errcode = .ok) (h : exec i s = .next t) (ht : t.errcode = .ok)
    (hend : ∀ ws log, G log → HostRun.EndsWith P ⟨rest, ws, bs, { t with busLog := log }⟩)
    (ws : List Word) (log : List BusRecord) (hl : G log) :
    HostRun.EndsWith P ⟨.waitLoop :: rest, ws, bs, { s with busLog := log }⟩ := by
  have htk : t.inputs = s.inputs ∧ t.pending = none ∧ t.sboxReady = s.sboxReady := by
    rcases exec_cases h with ⟨c, _, rfl⟩ | ⟨u, rfl, _, _, _, _, _, h6, _, h8, _⟩
    · exact ⟨rfl, rfl, rfl⟩
    · exact ⟨h8, rfl, h6⟩
  have hfin (ws log) (hl : G log) :
      HostRun.EndsWith P ⟨.waitLoop :: rest, ws, bs, { t with busLog := log }⟩ :=
    .waitIdle (htk.1.trans hi) ⟨htk.2.1, htk.2.2.trans hb⟩ (hend _ _ (hG.status (s := { t with busLog := log }) ht hl))
  have hcore (ws log) : HostRun.turn .core ⟨.waitLoop :: rest, ws, bs, { s with busLog := log }⟩ =
      .next ⟨.waitLoop :: rest, ws, bs, { t with busLog := log }⟩ :=
    turn_core_completes (r := ⟨_, ws, bs, { s with busLog := log }⟩) s.busLog hi hp hb hd h
  have hhost (ws log) : HostRun.hostTurn ⟨.waitLoop :: rest, ws, bs, { s with busLog := log }⟩ =
      .next ⟨.waitLoop :: rest, statusWord { s with busLog := log } :: ws, bs,
        { s with busLog := ⟨0x004, .read, .okay, statusWord { s with busLog := log }⟩ :: log }⟩ := by
    rw [hostTurn_wait rfl hi, if_pos (by simp [busy, hp])]; rfl
  intro sched
  induction sched generalizing ws log with
  | nil =>
    obtain ⟨r, hr, -, more, e, hm, hrun, hdone⟩ := hfin ws log hl [] (by simp)
    cases hr
    exact fun _ => ⟨_, rfl, fun h => by simp at h, .core :: more, e, by simp [hm],
      by simp only [HostRun.run, hcore, hrun], hdone⟩
  | cons a sched ih =>
    intro hn
    simp only [List.mem_cons, not_or] at hn
    cases a with
    | reset => exact absurd rfl hn.1
    | core => simp only [HostRun.run, hcore]; exact hfin ws log hl sched hn.2
    | host =>
      simp only [HostRun.run, HostRun.turn, hhost]
      exact ih _ _ (hG.status (s := { s with busLog := log }) he hl) hn.2

/-- EXEC of a command that completes without an error, from a state in which the core may be used (30_encoding.md R90). -/
theorem HostRun.EndsWith.exec {P : HostRun → Prop} {G : List BusRecord → Prop} (hG : KeptByGoodReads G) {i : Instr}
    {w : Word} {rest : List HostOp} {ws : List Word} {bs : List Block} {s t : State} (hi : s.inputs = [])
    (hr : Ready s) (hl : G s.busLog) (hd : decodeCmd w = .ok i) (h : exec i s = .next t) (ht : t.errcode = .ok)
    (hend : ∀ ws log, G log →
      HostRun.EndsWith P ⟨rest, ws, bs, { t with cmdLast := w, busLog := log }⟩) :
    HostRun.EndsWith P ⟨.wr 0x000 w :: .waitLoop :: rest, ws, bs, s⟩ := by
  refine .wr ⟨by omega, rfl⟩ hi hr ?_
  have hx := exec_bookkeeping i s t w (some w) false .ok s.busLog s.inputs h
  have hin : t.inputs = s.inputs := by
    rcases exec_cases h with ⟨c, _, rfl⟩ | ⟨u, rfl, _, _, _, _, _, _, _, h8, _⟩
    · rfl
    · exact h8
  exact .wait hG (s := issue w s) (t := { t with cmdLast := w, busLog := s.busLog, inputs := s.inputs }) hi rfl hr.2 hd rfl
    hx ht (fun ws log hl => by have := hend ws log hl; rw [← hin]; exact this) ws _
    (hG _ _ (fun h => nomatch h) hl)

end Sys2Proof.Machine
end

