-- ==== Sys2Proof/Tests/Slice0.lean ====
section
/-! SUPPORT. Tests: expected values come from spec/95_test_vectors.md and the rules named; and for every statement with
hypotheses a witness that meets them. -/

set_option Elab.async false

namespace Sys2Proof.Tests

open Sys2Proof Sys2Proof.Machine

/-! ## Helpers -/

/-- A Block written as 32 hex digits, byte 0 first (95_test_vectors.md, Notation). -/
def hex (n : Nat) : Block := mkBlock fun i => BitVec.ofNat 8 (n / 256 ^ (15 - i.val))

/-- The state a command leaves. -/
def after (i : Instr) (s : State) : State :=
  match exec i s with
  | .next t => t
  | .fault _ | .refused _ => s

/-- The state one step leaves, if it answers one. -/
def stepped (s : State) : Option State :=
  match step s with
  | .next t => some t
  | .fault _ | .refused _ => none

/-- The state after reset with GF written. -/
def withGf (w : Word) : State := windowWrite 0x008 w State.reset

/-- The state after reset with KEY and DIN written. -/
def withKeyDin (key din : Nat) : State := { State.reset with key := hex key, din := hex din }

/-- The state after reset with ST given as the Block that encodes it. -/
def withSt (st : Nat) : State := { State.reset with st := decodeBlock (hex st) }

/-- The state after reset and KEY_EXPAND, in a mode, with CHAIN and DIN. -/
def inMode (m : Mode) (key chain din : Nat) : State :=
  { after .keyExpand (withKeyDin key din) with mode := m, chain := hex chain }

/-- 000102030405060708090a0b0c0d0e0f. -/
def seqKey : Nat := 0x000102030405060708090a0b0c0d0e0f

/-- A state in which the word w is pending and it is the core's turn. -/
def pendingState (w : Word) : State := placeCommand w State.reset

/-- The state after reset and KEY_EXPAND, with the events still to come. -/
def expanded (es : List Event) : State := setInputs es (after .keyExpand State.reset)

/-! ## Well-formedness: one ill-formed term for each check (30_encoding.md R85) -/

theorem test_wf_refuses_round_key_11 : Instr.wf (.addRoundKey 11) = false := by decide
theorem test_wf_refuses_cbc_dec_rng : Instr.wf (.modeStart .cbcDec true) = false := by decide
theorem test_wf_allows_round_key_10 : Instr.wf (.addRoundKey 10) = true := by decide
theorem test_assemble_refuses_round_key_11 : assemble (.addRoundKey 11) = none := by decide

/-! ## Decoding: every constructor's word, RSV, ARG and OP written out bit by bit (30_encoding.md R80 to R84) -/

theorem test_decode_nop : decodeCmd 0b00000000000000000000_0000_00000000 = .ok .nop := by rfl
theorem test_decode_gf_mul : decodeCmd 0b00000000000000000000_0000_00000001 = .ok .gfMul := by rfl
theorem test_decode_gf_inv : decodeCmd 0b00000000000000000000_0000_00000010 = .ok .gfInv := by rfl
theorem test_decode_sbox_fwd : decodeCmd 0b00000000000000000000_0000_00000011 = .ok .sboxFwd := by rfl
theorem test_decode_sbox_inv : decodeCmd 0b00000000000000000000_0000_00000100 = .ok .sboxInv := by rfl
theorem test_decode_load_state : decodeCmd 0b00000000000000000000_0000_00010000 = .ok .loadState := by rfl
theorem test_decode_store_state : decodeCmd 0b00000000000000000000_0000_00010001 = .ok .storeState := by rfl
theorem test_decode_sub_bytes : decodeCmd 0b00000000000000000000_0000_00010010 = .ok .subBytes := by rfl
theorem test_decode_inv_sub_bytes : decodeCmd 0b00000000000000000000_0000_00010011 = .ok .invSubBytes := by rfl
theorem test_decode_shift_rows : decodeCmd 0b00000000000000000000_0000_00010100 = .ok .shiftRows := by rfl
theorem test_decode_inv_shift_rows : decodeCmd 0b00000000000000000000_0000_00010101 = .ok .invShiftRows := by rfl
theorem test_decode_mix_columns : decodeCmd 0b00000000000000000000_0000_00010110 = .ok .mixColumns := by rfl
theorem test_decode_inv_mix_columns : decodeCmd 0b00000000000000000000_0000_00010111 = .ok .invMixColumns := by rfl
theorem test_decode_add_round_key_5 : decodeCmd 0b00000000000000000000_0101_00011000 = .ok (.addRoundKey 5) := by rfl
theorem test_decode_add_round_key_10 : decodeCmd 0b00000000000000000000_1010_00011000 = .ok (.addRoundKey 10) := by rfl
theorem test_decode_key_expand : decodeCmd 0b00000000000000000000_0000_00100000 = .ok .keyExpand := by rfl
theorem test_decode_encrypt_block : decodeCmd 0b00000000000000000000_0000_00100001 = .ok .encryptBlock := by rfl
theorem test_decode_decrypt_block : decodeCmd 0b00000000000000000000_0000_00100010 = .ok .decryptBlock := by rfl
theorem test_decode_mode_start_cbc_enc :
    decodeCmd 0b00000000000000000000_0000_00110000 = .ok (.modeStart .cbcEnc false) := by rfl
theorem test_decode_mode_start_cbc_dec :
    decodeCmd 0b00000000000000000000_0001_00110000 = .ok (.modeStart .cbcDec false) := by rfl
theorem test_decode_mode_start_ctr :
    decodeCmd 0b00000000000000000000_0010_00110000 = .ok (.modeStart .ctr false) := by rfl
theorem test_decode_mode_start_ctr_rng :
    decodeCmd 0b00000000000000000000_0110_00110000 = .ok (.modeStart .ctr true) := by rfl
theorem test_decode_mode_block : decodeCmd 0b00000000000000000000_0000_00110001 = .ok .modeBlock := by rfl
theorem test_decode_mode_end : decodeCmd 0b00000000000000000000_0000_00110010 = .ok .modeEnd := by rfl
theorem test_decode_refuses_arg_on_plain_command :
    decodeCmd 0b00000000000000000000_0001_00000000 = .error .illegalCmd := by rfl
theorem test_decode_checks_rsv_before_mode : decodeCmd 0x00001330 = .error .illegalCmd := by rfl
theorem test_decode_checks_arg3_before_mode : decodeCmd 0x00000B30 = .error .illegalCmd := by rfl
theorem test_decode_mode_3_with_rng : decodeCmd 0x00000730 = .error .unsupportedMode := by rfl

/-! ## The interface's own two functions -/

theorem test_decodeTableWord_round_key : decodeTableWord 32 0x00000A18 = some (.addRoundKey 10) := by rfl
theorem test_decodeTableWord_refuses : decodeTableWord 32 0x00000B18 = none := by rfl
theorem test_withFetchWord_runs_load_state :
    (stepped ({ State.reset with din := hex seqKey }.withFetchWord 32 0x10)).map (fun t => encodeState t.st)
      = some (hex seqKey) := by decide +kernel
theorem test_withFetchWord_illegal_word :
    (stepped (State.reset.withFetchWord 32 0x05)).map (fun t => (t.errcode, t.done, t.pending))
      = some (.illegalCmd, true, none) := by decide +kernel

/-! ## Commands, with the vectors of 95_test_vectors.md -/

theorem test_nop_status : windowRead 0x004 (after .nop State.reset) = 0x0000000A := by decide
theorem test_nop_clears_error :
    windowRead 0x004 (after .nop { State.reset with errcode := .sequenceErr, done := true }) = 0x0000000A := by decide
theorem test_gf_mul_vgfcmd : windowRead 0x008 (after .gfMul (withGf 0x00008357)) = 0x00C18357 := by decide
theorem test_gf_mul_ignores_high_half : windowRead 0x008 (after .gfMul (withGf 0xFFFFFFFF)) = 0x0013FFFF := by decide
theorem test_gf_inv_vgfcmd : windowRead 0x008 (after .gfInv (withGf 0x0000AB53)) = 0x00CAAB53 := by decide +kernel
theorem test_gf_inv_of_zero : windowRead 0x008 (after .gfInv (withGf 0x00000000)) = 0x00000000 := by decide +kernel
theorem test_sbox_fwd_vgfcmd : windowRead 0x008 (after .sboxFwd (withGf 0x00000053)) = 0x00ED0053 := by decide
theorem test_sbox_fwd_of_zero : windowRead 0x008 (after .sboxFwd (withGf 0x00000000)) = 0x00630000 := by decide
theorem test_sbox_inv_vgfcmd : windowRead 0x008 (after .sboxInv (withGf 0x000000ED)) = 0x005300ED := by decide
theorem test_sbox_inv_of_zero : windowRead 0x008 (after .sboxInv (withGf 0x00000000)) = 0x00520000 := by decide
/-- V-CODEC-1: row 1 of the decoded State. -/
theorem test_load_state_row_1 :
    (after .loadState (withKeyDin 0 seqKey)).st.get 1 = #v[0x01, 0x05, 0x09, 0x0d] := by decide +kernel
theorem test_store_state_vcodec2 :
    (after .storeState (withSt 0x00112233445566778899aabbccddeeff)).dout = hex 0x00112233445566778899aabbccddeeff := by
  decide +kernel
theorem test_sub_bytes_vrt1 :
    encodeState (after .subBytes (withSt seqKey)).st = hex 0x637c777bf26b6fc53001672bfed7ab76 := by decide +kernel
theorem test_inv_sub_bytes_vrt1 :
    encodeState (after .invSubBytes (withSt seqKey)).st = hex 0x52096ad53036a538bf40a39e81f3d7fb := by decide +kernel
theorem test_shift_rows_vrt2 :
    encodeState (after .shiftRows (withSt seqKey)).st = hex 0x00050a0f04090e03080d02070c01060b := by decide +kernel
theorem test_inv_shift_rows_vrt2 :
    encodeState (after .invShiftRows (withSt seqKey)).st = hex 0x000d0a0704010e0b0805020f0c090603 := by decide +kernel
theorem test_mix_columns_vrt3 :
    encodeState (after .mixColumns (withSt seqKey)).st = hex 0x02070005060304010a0f080d0e0b0c09 := by decide +kernel
/-- V-RT-5, the column 01000000: the right-rotated circulant. -/
theorem test_mix_columns_first_column :
    encodeState (after .mixColumns (withSt 0x01000000000000000000000000000000)).st
      = hex 0x02010103000000000000000000000000 := by decide +kernel
theorem test_inv_mix_columns_vrt3 :
    encodeState (after .invMixColumns (withSt seqKey)).st = hex 0x0a0f080d0e0b0c090207000506030401 := by decide +kernel
theorem test_inv_mix_columns_first_column :
    encodeState (after .invMixColumns (withSt 0x01000000000000000000000000000000)).st
      = hex 0x0e090d0b000000000000000000000000 := by decide +kernel
/-- V-RT-7, idx 10. -/
theorem test_add_round_key_vrt7 :
    encodeState (after (.addRoundKey 10)
      { after .keyExpand (withKeyDin seqKey 0) with st := decodeBlock (hex 0x00112233445566778899aabbccddeeff) }).st
      = hex 0x13003f4ca7c12c607b9e0d3081f6de3a := by decide +kernel
theorem test_add_round_key_sequence_error : windowRead 0x004 (after (.addRoundKey 0) State.reset) = 0x0000030E := by decide
/-- V-KS-2, the last round key. -/
theorem test_key_expand_vks2 :
    encodeState ((after .keyExpand (withKeyDin 0x2b7e151628aed2a6abf7158809cf4f3c 0)).rk.get 10)
      = hex 0xd014f9a8c9ee2589e13f0cc8b6630ca6 := by decide +kernel
/-- P2: the word at 0x3A4. -/
theorem test_key_expand_window_word : windowRead 0x3A4 (after .keyExpand (withKeyDin seqKey 0)) = 0x174A94E3 := by
  decide +kernel
theorem test_encrypt_block_vbc1 :
    (after .encryptBlock (withKeyDin seqKey 0x00112233445566778899aabbccddeeff)).dout
      = hex 0x69c4e0d86a7b0430d8cdb78070b4c55a := by decide +kernel
theorem test_encrypt_block_vbc2 :
    (after .encryptBlock (withKeyDin 0x2b7e151628aed2a6abf7158809cf4f3c 0x3243f6a8885a308d313198a2e0370734)).dout
      = hex 0x3925841d02dc09fbdc118597196a0b32 := by decide +kernel
theorem test_decrypt_block_vbc1 :
    (after .decryptBlock (withKeyDin seqKey 0x69c4e0d86a7b0430d8cdb78070b4c55a)).dout
      = hex 0x00112233445566778899aabbccddeeff := by decide +kernel
theorem test_decrypt_block_vbc4 :
    (after .decryptBlock (withKeyDin 0 0)).dout = hex 0x140f0f1011b5223d79587717ffd9ec3a := by decide +kernel
/-- V-MODE: MODE_START CTR with IV = ff..ff. -/
theorem test_mode_start_ctr_status :
    windowRead 0x004 (after (.modeStart .ctr false) { State.reset with iv := hex 0xffffffffffffffffffffffffffffffff })
      = 0x000000DA := by decide +kernel
theorem test_mode_start_cbc_enc_prefix :
    (after (.modeStart .cbcEnc false) { State.reset with iv := hex seqKey }).chain = hex seqKey := by decide +kernel
/-- V-MODE: the counter wraps before it is encrypted, so the keystream is that of counter 0. -/
theorem test_mode_block_ctr_wraps :
    (after .modeBlock (inMode .ctr 0 0xffffffffffffffffffffffffffffffff 0)).chain = hex 0 ∧
    (after .modeBlock (inMode .ctr 0 0xffffffffffffffffffffffffffffffff 0)).dout
      = hex 0x66e94bd4ef8a2c3b884cfa59ca342b2e := by decide +kernel
/-- V-CBC-1, block 2 decrypted: the chaining value is the ciphertext block before it. -/
theorem test_mode_block_cbc_dec :
    (after .modeBlock (inMode .cbcDec 0x2b7e151628aed2a6abf7158809cf4f3c 0x7649abac8119b246cee98e9b12e9197d
      0x5086cb9b507219ee95db113a917678b2)).dout = hex 0xae2d8a571e03ac9c9eb76fac45af8e51 := by decide +kernel
theorem test_mode_block_after_reset : windowRead 0x004 (after .modeBlock State.reset) = 0x0000030E := by decide
theorem test_mode_end_after_reset : windowRead 0x004 (after .modeEnd State.reset) = 0x0000000A := by decide

/-! ## The window, reset, the message functions -/

/-- V-WIN: the ROM words at 0x150 and 0x1FC. -/
theorem test_rom_words : windowRead 0x150 State.reset = 0xED00D153 ∧ windowRead 0x1FC State.reset = 0x16BB54B0 := by decide
theorem test_inv_rom_word : windowRead 0x200 State.reset = 0xD56A0952 := by decide
/-- V-WIN: a write of 0xDDCCBBAA at 0x024. -/
theorem test_block_word_write :
    (windowWrite 0x024 0xDDCCBBAA State.reset).din = hex 0x00000000aabbccdd0000000000000000 := by decide +kernel
theorem test_halfword_write_refused : busWrite 0x010 2 0x0000FFFF State.reset = (.slverr, State.reset) := by rfl
theorem test_misaligned_read_refused : busRead 0x002 4 State.reset = (.slverr, 0) := by decide
theorem test_status_during_build : windowRead 0x004 (resetStep State.reset) = 0x00000001 := by decide
theorem test_rom_reads_zero_during_build : windowRead 0x100 (resetStep State.reset) = 0 := by decide
/-- P6: a write while KEY_EXPAND is pending. -/
theorem test_write_while_busy_sets_ovr :
    windowRead 0x004 (busWrite 0x010 4 0xFFFFFFFF (issue 0x20 State.reset)).2 = 0x00000029 := by decide
/-- V-CTR-INC. -/
theorem test_ctr_inc_carries : ctrInc (hex 0x00ffffffffffffffffffffffffffffff) = hex 0x01000000000000000000000000000000 := by
  decide +kernel
/-- V-MSG-LEN: one byte in CTR. -/
theorem test_encrypt_one_byte_ctr :
    encryptMessage [0x00] (blockBytes (hex 0x2b7e151628aed2a6abf7158809cf4f3c)) .ctr (some (blockBytes (hex seqKey))) zeroBlock
      = .ok (blockBytes (hex seqKey) ++ [0xAF]) := by decide +kernel

/-! ## Host programs (30_encoding.md R89, R90) -/

/-- The example of 30_encoding.md R90. -/
theorem test_wrb_words :
    (HostStmt.wrb 0x010 (hex seqKey)).expand =
      [.wr 0x010 0x03020100, .wr 0x014 0x07060504, .wr 0x018 0x0b0a0908, .wr 0x01C 0x0f0e0d0c] := by decide +kernel
/-- While nothing completes the command, WAIT stays at its loop, and its read is recorded. -/
theorem test_wait_loops_while_busy :
    ∃ c, HostRun.hostTurn ⟨[.waitLoop], [], [], issue 0x00 State.reset⟩ = .next ⟨[.waitLoop], [0x00000009], [], c⟩ :=
  ⟨_, hostTurn_wait rfl rfl⟩
/-- Once the core is idle, one read ends it. -/
theorem test_wait_ends_when_idle :
    ∃ c, HostRun.hostTurn ⟨[.waitLoop], [], [], doneWith State.reset⟩ = .next ⟨[], [0x0000000A], [], c⟩ :=
  ⟨_, hostTurn_wait rfl rfl⟩
/-- RDB joins what WRB wrote, here through IV. -/
theorem test_rdb_joins_the_block :
    (startProgram [.wrb 0x040 (hex seqKey), .rdb 0x040] State.reset).EndsWith fun r => r.blocks = [hex seqKey] := by
  have wr (k : Fin 4) : WordOffset (0x040 + 4 * k.val) := ⟨by omega, by omega⟩
  refine .wr (wr 0) rfl ⟨rfl, rfl⟩ (.wr (wr 1) rfl ⟨rfl, rfl⟩ (.wr (wr 2) rfl ⟨rfl, rfl⟩ (.wr (wr 3) rfl ⟨rfl, rfl⟩ ?_)))
  refine .rd (wr 0) rfl ⟨rfl, rfl⟩ (.rd (wr 1) rfl ⟨rfl, rfl⟩ (.rd (wr 2) rfl ⟨rfl, rfl⟩ (.rd (wr 3) rfl ⟨rfl, rfl⟩ ?_)))
  exact .join rfl ⟨rfl, rfl⟩ (.nil rfl rfl ⟨rfl, rfl⟩ (by decide +kernel))

/-! ## Witnesses: the hypotheses of the statements can be met -/

theorem witness_DecodeOfEncodeIsTheCommand :
    Instr.wf (.addRoundKey 10) = true ∧ Instr.wf (.modeStart .ctr true) = true ∧ Instr.wf .nop = true := by decide
theorem witness_DecodedWordIsItsEncoding : decodeCmd 0x00000A18 = .ok (.addRoundKey 10) := by rfl
theorem witness_DecodeErrorsByWord :
    decodeCmd 0x00000330 = .error .unsupportedMode ∧ decodeCmd 0x00000005 = .error .illegalCmd := ⟨rfl, rfl⟩
theorem witness_ReservedOpcodesAreIllegal :
    (0x05 ≤ (cmdOp 0x05).toNat ∧ (cmdOp 0x0F).toNat ≤ 0x0F) ∧ (0x19 ≤ (cmdOp 0x19).toNat ∧ (cmdOp 0x1F).toNat ≤ 0x1F) ∧
    (0x23 ≤ (cmdOp 0x23).toNat ∧ (cmdOp 0x2F).toNat ≤ 0x2F) ∧ 0x33 ≤ (cmdOp 0x33).toNat ∧ 0x33 ≤ (cmdOp 0xFF).toNat := by
  decide
theorem witness_StepRunsTheDecodedCommand :
    (pendingState 0x20).sboxReady = true ∧ (pendingState 0x20).pending = some 0x20 ∧ decodeCmd 0x20 = .ok .keyExpand ∧
    CoreTurn (pendingState 0x20) ∧ CoreTurn (issue 0x20 State.reset) ∧
    (State.reset.sboxReady = true ∧ State.reset.pending = none ∧ CoreTurn State.reset) :=
  ⟨rfl, rfl, rfl, .inr rfl, .inl rfl, rfl, rfl, .inl rfl⟩
theorem witness_IllegalWordCompletesWithItsCode :
    (pendingState 0x330).sboxReady = true ∧ (pendingState 0x330).pending = some 0x330 ∧
    decodeCmd 0x330 = .error .unsupportedMode ∧ CoreTurn (pendingState 0x330) := ⟨rfl, rfl, rfl, .inr rfl⟩
theorem witness_CompletionBookkeepingIsPrecise :
    ((pendingState 0x18).sboxReady = true ∧ (pendingState 0x18).pending = some 0x18 ∧ CoreTurn (pendingState 0x18)) ∧
    completionCode 0x18 (pendingState 0x18) = .sequenceErr ∧ completionCode 0x330 (pendingState 0x330) = .unsupportedMode ∧
    completionCode 0xB18 (pendingState 0xB18) = .illegalCmd ∧ completionCode 0x20 (pendingState 0x20) = .ok :=
  ⟨⟨rfl, rfl, .inr rfl⟩, rfl, rfl, rfl, rfl⟩
theorem witness_SequenceErrorExactlyWhen :
    (Instr.wf (.addRoundKey 0) = true ∧ exec (.addRoundKey 0) State.reset = .next (failedWith .sequenceErr State.reset)) ∧
    (Instr.wf .modeBlock = true ∧ exec .modeBlock State.reset = .next (failedWith .sequenceErr State.reset)) ∧
    exec .modeBlock { State.reset with mode := .ctr } = .next (failedWith .sequenceErr { State.reset with mode := .ctr }) ∧
    exec .nop State.reset = .next (doneWith State.reset) := ⟨⟨rfl, rfl⟩, ⟨rfl, rfl⟩, rfl, rfl⟩
theorem witness_CmdWriteIssues :
    (busy (setInputs [memWrite 0x000 0x21] State.reset) = false) ∧
    (busy (setInputs [memWrite 0x000 0x21] (issue 0x20 State.reset)) = true) ∧
    (∃ t, step (setInputs [memRead 0x004] (issue 0x20 State.reset)) = .next t) :=
  ⟨rfl, rfl, _, by rw [step_host rfl]; simp [hostAccess]; rfl⟩
theorem witness_BusyWriteIsIgnoredAndSetsOvr :
    WordOffset 0x000 ∧ WordOffset 0xFFC ∧ busy (setInputs [memWrite 0xFFC 1] (issue 0x20 State.reset)) = true ∧
    busy (setInputs [memWrite 0x000 1] (resetStep State.reset)) = true :=
  ⟨⟨by omega, rfl⟩, ⟨by omega, rfl⟩, rfl, rfl⟩
theorem witness_ReadHasNoSideEffect :
    WordOffset 0x000 ∧ WordOffset 0xFFC ∧ (setInputs [memRead 0xFFC] State.reset).inputs = memRead 0xFFC :: [] :=
  ⟨⟨by omega, rfl⟩, ⟨by omega, rfl⟩, rfl⟩

/-- The invariant of a state that is RK_VALID = 0, IDLE with CHAIN 0, not building, and without an error. -/
theorem inv_of_quiet {s : State} (hv : s.rkValid = false) (hc : s.chain = zeroBlock) (hb : s.sboxReady = true)
    (he : s.errcode = .ok) (hp : ∀ w, s.pending = some w → s.cmdLast = w ∧ s.done = false) : Inv s where
  rk := fun h => by rw [hv] at h; cases h
  pending := fun w h => ⟨(hp w h).1, (hp w h).2, he⟩
  idle := fun _ => hc
  build := fun h => by rw [hb] at h; cases h
  err := fun h => absurd he h

/-- The invariant after KEY_EXPAND, with any events still to come. -/
theorem inv_expanded (es : List Event) : Inv (expanded es) where
  rk := fun _ => rfl
  pending := fun w h => by cases h
  idle := fun _ => rfl
  build := fun h => by cases h
  err := fun h => absurd rfl h

theorem witness_StatusWhileBusy : Inv (issue 0x20 State.reset) ∧ (issue 0x20 State.reset).pending = some 0x20 :=
  ⟨inv_of_quiet rfl rfl rfl rfl fun w h => by cases h; exact ⟨rfl, rfl⟩, rfl⟩
theorem witness_RefusedAccessGetsSlverr :
    ((0xFFF : Nat) < 0x1000 ∧ ¬((1 : Nat) = 4 ∧ 0xFFF % 4 = 0)) ∧ ((0x002 : Nat) < 0x1000 ∧ ¬((4 : Nat) = 4 ∧ 0x002 % 4 = 0)) ∧
    ((0x000 : Nat) < 0x1000 ∧ ¬((8 : Nat) = 4 ∧ 0x000 % 4 = 0)) ∧
    (setInputs [.host ⟨Config.coreBase + 0x002, 4, .write 1⟩] State.reset).inputs
      = .host ⟨Config.coreBase + 0x002, 4, .write 1⟩ :: [] := ⟨by decide, by decide, by decide, rfl⟩
/-- Accesses that start inside the window and run past its end (log entry 9). -/
theorem witness_RefusedAccessGetsSlverr_straddling :
    ((0xFFE : Nat) < 0x1000 ∧ ¬((4 : Nat) = 4 ∧ 0xFFE % 4 = 0)) ∧ ((0xFFC : Nat) < 0x1000 ∧ ¬((8 : Nat) = 4 ∧ 0xFFC % 4 = 0)) ∧
    (setInputs [.host ⟨Config.coreBase + 0xFFE, 4, .read⟩] State.reset).inputs
      = .host ⟨Config.coreBase + 0xFFE, 4, .read⟩ :: [] ∧
    (setInputs [.host ⟨Config.coreBase + 0xFFC, 8, .write 1⟩] State.reset).inputs
      = .host ⟨Config.coreBase + 0xFFC, 8, .write 1⟩ :: [] := ⟨by decide, by decide, rfl, rfl⟩
theorem witness_OutsideWindowStops :
    Config.coreBase + 0x1000 ≤ (⟨Config.coreBase + 0x1000, 4, .read⟩ : Access).addr ∧
    step (setInputs [.host ⟨Config.coreBase + 0x1000, 4, .read⟩] State.reset) = .fault .outsideWindow :=
  ⟨Nat.le_refl _, by rw [step_host rfl]; simp [hostAccess]⟩
theorem witness_ReservedOffsetsReadZero :
    (0x00C % 4 = 0 ∧ 0x060 % 4 = 0 ∧ 0x0FC % 4 = 0 ∧ 0x3B0 % 4 = 0 ∧ 0xFFC % 4 = 0) ∧
    windowRead 0x00C State.reset = 0 ∧ windowRead 0x060 State.reset = 0 ∧ windowRead 0x0FC State.reset = 0 ∧
    windowRead 0x3B0 State.reset = 0 ∧ windowRead 0xFFC State.reset = 0 ∧
    busy State.reset = false ∧ busy (issue 0 State.reset) = true := by decide
theorem witness_BlockRegistersByWord : busy State.reset = false := by rfl
theorem witness_KeyWriteInvalidatesRoundKeys :
    busy (expanded [memWrite (0x010 + 4 * (3 : Fin 4).val) 0]) = false ∧
    (expanded [memWrite (0x010 + 4 * (3 : Fin 4).val) 0]).rkValid = true ∧ (10#4).toNat ≤ 10 := ⟨rfl, rfl, by decide⟩
theorem witness_StatusFieldsByBit :
    busy { State.reset with ovr := true } = false ∧
    (busy (setInputs [memWrite 0x004 0x20] { State.reset with ovr := true }) = false ∧
      (setInputs [memWrite 0x004 0x20] { State.reset with ovr := true }).inputs = memWrite 0x004 0x20 :: []) ∧
    (WordOffset 0xFFC ∧ busy (setInputs [memWrite 0xFFC 1] State.reset) = false ∧
      (setInputs [memWrite 0xFFC 1] State.reset).inputs = memWrite 0xFFC 1 :: []) :=
  ⟨rfl, ⟨rfl, rfl⟩, ⟨by omega, rfl⟩, rfl, rfl⟩
theorem witness_GfRegisterReadAndWrite :
    busy (withGf 0x00008357) = false ∧ busy (setInputs [memWrite 0x008 0x8357] State.reset) = false ∧
    (setInputs [memWrite 0x008 0x8357] State.reset).inputs = memWrite 0x008 0x8357 :: [] := ⟨rfl, rfl, rfl⟩
theorem witness_RomWindowsReadTheTables :
    State.reset.sboxReady = true ∧ (resetStep State.reset).sboxReady = false ∧ busy State.reset = false := ⟨rfl, rfl, rfl⟩
theorem witness_RoundKeyWindow : busy (expanded []) = false ∧ Inv (expanded []) ∧ (expanded []).rkValid = true :=
  ⟨rfl, inv_expanded [], rfl⟩
theorem witness_HostCannotWriteResults :
    ∃ t, step (setInputs [memWrite 0x030 0xFFFFFFFF] (expanded [])) = .next t :=
  ⟨_, by rw [step_host rfl]; simp [hostAccess]; rfl⟩
theorem witness_ResetThenBuild :
    (setInputs [.reset, .core] (issue 0x20 State.reset)).inputs = .reset :: [.core] ∧
    CoreTurn (resetStep (setInputs [.core] State.reset)) ∧ WordOffset 0xFFC := ⟨rfl, .inr rfl, by omega, rfl⟩
theorem witness_ResetStateAsSpecified :
    (WordOffset 0x0FC ∧ (0x0FC : Nat) < 0x100) ∧ (WordOffset 0x300 ∧ 0x300 ≤ 0x300) ∧ (0#4).toNat ≤ 10 ∧ (10#4).toNat ≤ 10 :=
  ⟨⟨⟨by omega, rfl⟩, by omega⟩, ⟨⟨by omega, rfl⟩, by omega⟩, by decide, by decide⟩
theorem witness_EveryStepKeepsInvariant :
    Inv (expanded [.core]) ∧ step (expanded [.core]) = .next (expanded []) := ⟨inv_expanded _, rfl⟩
theorem witness_FieldLaws : (0x53 : Byte) ≠ 0 ∧ gmul 0x53 (ginv 0x53) = 0x01 := by decide +kernel
theorem witness_GinvIsTheUniqueInverse : (0xCA : Byte) ≠ 0 ∧ gmul 0xCA 0x53 = 0x01 := by decide
theorem witness_AddRoundKeyCommand :
    ((10#4).toNat < 11 ∧ (expanded []).rkValid = true) ∧ ((0#4).toNat < 11 ∧ State.reset.rkValid = false) ∧
    11 ≤ (11#4).toNat ∧ 11 ≤ (15#4).toNat := ⟨⟨by decide, rfl⟩, ⟨by decide, rfl⟩, by decide, by decide⟩
theorem witness_PrimitiveSequencesAgreeWithTheCipher : Ready State.reset := ⟨rfl, rfl⟩
theorem witness_CounterIncrementsModulo : (0 : Nat) < 2 ^ 128 ∧ 2 ^ 128 - 1 < 2 ^ 128 := by norm_num
theorem witness_KeyScheduleRecurrence : (1 : Fin 4) ≠ 0 ∧ (3 : Fin 4) ≠ 0 := by decide
theorem witness_ModeStartCommand : StartMode.cbcEnc ≠ .cbcDec ∧ StartMode.ctr ≠ .cbcDec := by decide
theorem witness_ModeBlockCommand :
    ((inMode .cbcEnc 0 0 0).mode = .cbcEnc ∧ (inMode .cbcEnc 0 0 0).rkValid = true) ∧
    ((inMode .cbcDec 0 0 0).mode = .cbcDec ∧ (inMode .cbcDec 0 0 0).rkValid = true) ∧
    ((inMode .ctr 0 0 0).mode = .ctr ∧ (inMode .ctr 0 0 0).rkValid = true) ∧ State.reset.mode = .idle ∧
    { inMode .ctr 0 0 0 with rkValid := false }.rkValid = false := ⟨⟨rfl, rfl⟩, ⟨rfl, rfl⟩, ⟨rfl, rfl⟩, rfl, rfl⟩
/-- The invariant in a message. -/
theorem inv_inMode (m : Mode) (hm : m ≠ .idle) (key chain din : Nat) : Inv (inMode m key chain din) where
  rk := fun _ => rfl
  pending := fun w h => by cases h
  idle := fun h => absurd h hm
  build := fun h => by cases h
  err := fun h => absurd rfl h

theorem witness_ModeBlockWithStoredRoundKeys :
    (∀ m : Mode, m ≠ .idle → Inv (inMode m 0 0 0) ∧ (inMode m 0 0 0).rkValid = true ∧ (inMode m 0 0 0).mode = m) ∧
    Mode.cbcEnc ≠ .idle ∧ Mode.cbcDec ≠ .idle ∧ Mode.ctr ≠ .idle :=
  ⟨fun m h => ⟨inv_inMode m h 0 0 0, rfl, rfl⟩, by decide, by decide, by decide⟩

/-- One MODE_BLOCK with DIN = 0 after another, from a CTR message begun with an all-zero prefix. -/
def ctrRun : Nat → State
  | 0 => inMode .ctr 0 0 0
  | n + 1 => after .modeBlock { ctrRun n with din := zeroBlock }

/-- One step of the run, from any state in which CTR is running. -/
theorem ctrRun_step {s : State} (hm : s.mode = .ctr) (hv : s.rkValid = true) :
    exec .modeBlock s = .next (doneWith (ctrStep s)) := by
  simp only [exec, execModeBlock]
  rw [if_neg (by rw [hm]; decide), if_neg (by rw [hv]; decide), hm]
  rfl

/-- What every state of the run is. -/
theorem ctrRun_mode (n : Nat) : (ctrRun n).mode = .ctr ∧ (ctrRun n).rkValid = true := by
  induction n with
  | zero => exact ⟨rfl, rfl⟩
  | succ n ih =>
    simp only [ctrRun, after]
    rw [ctrRun_step (s := { ctrRun n with din := zeroBlock }) ih.1 ih.2]
    exact ih

theorem witness_CtrCounterConvention :
    (ctrRun 0).mode = .ctr ∧ (ctrRun 0).rkValid = true ∧
    ∀ j, exec .modeBlock { ctrRun j with din := zeroBlock } = .next (ctrRun (j + 1)) := by
  refine ⟨rfl, rfl, fun j => ?_⟩
  have h := ctrRun_mode j
  simp only [ctrRun, after]
  rw [ctrRun_step (s := { ctrRun j with din := zeroBlock }) h.1 h.2]
theorem witness_ModeTransitions :
    exec .modeBlock State.reset = .next (failedWith .sequenceErr State.reset) ∧
    exec .modeEnd State.reset = .next (doneWith { State.reset with mode := .idle, chain := zeroBlock }) ∧
    (∃ t, exec (.modeStart .ctr false) State.reset = .next t ∧ t.errcode = .ok) ∧
    (∃ t, exec .modeBlock (inMode .ctr 0 0 0) = .next t ∧ t.errcode = .ok) ∧
    (∃ t, exec .loadState State.reset = .next t ∧ t.errcode = .ok) :=
  ⟨rfl, rfl, ⟨_, rfl, rfl⟩, ⟨_, rfl, rfl⟩, ⟨_, rfl, rfl⟩⟩
theorem witness_CommandsWriteOnlyTheirElements :
    (∃ t, exec .gfMul State.reset = .next t) ∧ writesRk .gfMul = false ∧ writesGr .keyExpand = false ∧
    writesDout .keyExpand = false ∧ writesSt .keyExpand = false ∧ writesChain .keyExpand = false ∧
    (∀ m, Instr.keyExpand ≠ .modeStart m true) := ⟨⟨_, rfl⟩, rfl, rfl, rfl, rfl, rfl, fun m h => by cases h⟩
theorem witness_CommandsLeaveOtherWordsUnchanged :
    (∃ t, exec .keyExpand State.reset = .next t) ∧ WordOffset 0x008 ∧ writesGr .keyExpand = false ∧ WordOffset 0x03C ∧
    writesDout .keyExpand = false ∧ WordOffset 0x05C ∧ writesChain .keyExpand = false ∧ WordOffset 0x3AC ∧
    writesRk .gfMul = false ∧ WordOffset 0x04C ∧ (∀ m, Instr.keyExpand ≠ .modeStart m true) :=
  ⟨⟨_, rfl⟩, ⟨by omega, rfl⟩, rfl, ⟨by omega, rfl⟩, rfl, ⟨by omega, rfl⟩, rfl, ⟨by omega, rfl⟩, rfl, ⟨by omega, rfl⟩,
    fun m h => by cases h⟩
theorem witness_PartialCtrBlockFillNeverReachesOutput :
    (inMode .ctr 0 0 0).mode = .ctr ∧ (inMode .ctr 0 0 0).rkValid = true ∧
    (∀ i : Fin 16, i.val < 15 → (hex 0x7fffffffffffffffffffffffffffff00).get i = (hex 0x7fffffffffffffffffffffffffffff01).get i) ∧
    (∃ t, exec .modeBlock { inMode .ctr 0 0 0 with din := hex 0x7fffffffffffffffffffffffffffff00 } = .next t) ∧
    (∃ u, exec .modeBlock { inMode .ctr 0 0 0 with din := hex 0x7fffffffffffffffffffffffffffff01 } = .next u) :=
  ⟨rfl, rfl, by decide +kernel, ⟨_, rfl⟩, ⟨_, rfl⟩⟩
/-- V-MSG-ERR: one call for each clause. -/
theorem witness_BoundaryChecksInOrder :
    encryptMessage [] (List.replicate 15 0) .other none zeroBlock = .error .invalidLength ∧
    encryptMessage [0] (List.replicate 16 0) .other (some [0]) zeroBlock = .error .invalidLength ∧
    encryptMessage [0] (List.replicate 16 0) .other none zeroBlock = .error .unsupportedMode ∧
    encryptMessage [0] (List.replicate 16 0) .cbc none zeroBlock = .error .invalidLength ∧
    decryptMessage [] (List.replicate 17 0) .other = .error .invalidLength ∧
    decryptMessage [] (List.replicate 16 0) .other = .error .unsupportedMode ∧
    decryptMessage (List.replicate 15 0) (List.replicate 16 0) .ctr = .error .malformedCiphertext ∧
    decryptMessage (List.replicate 21 0) (List.replicate 16 0) .cbc = .error .malformedCiphertext := by decide +kernel
theorem witness_MessageOutputLengths :
    (encryptMessage [] (List.replicate 16 0) .cbc none zeroBlock).toOption = some (List.replicate 16 0) ∧
    (decryptMessage (List.replicate 16 0) (List.replicate 16 0) .ctr).toOption = some [] := by decide +kernel
theorem witness_MessageRoundTrips :
    (∃ out, encryptMessage [1] (List.replicate 16 0) .ctr none zeroBlock = .ok out) ∧
    (∃ out, encryptMessage (List.replicate 16 1) (List.replicate 16 0) .cbc none zeroBlock = .ok out) := ⟨⟨_, rfl⟩, ⟨_, rfl⟩⟩
theorem witness_DistinctIvsDifferInEveryBlock :
    (List.replicate 16 0 : List Byte) ≠ List.replicate 16 1 ∧
    (∃ out, encryptMessage (List.replicate 16 1) (List.replicate 16 0) .cbc (some (List.replicate 16 0)) zeroBlock = .ok out) ∧
    (∃ out, encryptMessage (List.replicate 16 1) (List.replicate 16 0) .cbc (some (List.replicate 16 1)) zeroBlock = .ok out) :=
  ⟨by decide, ⟨_, rfl⟩, ⟨_, rfl⟩⟩
theorem witness_DriverMeetsTheMessageFunctions :
    Ready State.reset ∧
    (∃ prog, driveEncrypt [1] (List.replicate 16 0) .ctr none (fun _ => zeroBlock) = .ok prog) ∧
    (∃ prog, driveDecrypt (List.replicate 32 1) (List.replicate 16 0) .cbc (fun _ => zeroBlock) = .ok prog) :=
  ⟨⟨rfl, rfl⟩, ⟨_, rfl⟩, ⟨_, rfl⟩⟩

end Sys2Proof.Tests
end

section
/-! PROOFS. What each command can leave, and the frame of all of them (10_state.md R22 to R38). -/

namespace Sys2Proof.Machine

section Commands

variable {s t : State}

/-- Everything ADD_ROUND_KEY can do (43_round_transforms.md R183). -/
theorem execAddRoundKey_next {idx : BitVec 4} (h : exec (.addRoundKey idx) s = .next t) :
    (∃ code, t = failedWith code s) ∨ ∃ st, t = doneWith { s with st := st } := by
  simp only [exec, execAddRoundKey] at h
  split at h
  · cases h; exact .inl ⟨_, rfl⟩
  · split at h <;> cases h
    · exact .inr ⟨_, rfl⟩
    · exact .inl ⟨_, rfl⟩

/-- Everything MODE_START can do (45_mode_controller.md R223). -/
theorem execModeStart_next {m : StartMode} {rng : Bool} (h : exec (.modeStart m rng) s = .next t) :
    (∃ code, t = failedWith code s) ∨ t = doneWith (beginMessage m (startPrefix rng s) (afterPrefix rng s)) := by
  simp only [exec, execModeStart] at h
  split at h <;> cases h
  · exact .inl ⟨_, rfl⟩
  · exact .inr rfl

/-- Everything MODE_BLOCK can do (45_mode_controller.md R224). -/
theorem execModeBlock_next (h : exec .modeBlock s = .next t) :
    (∃ code, t = failedWith code s) ∨
      s.mode ≠ .idle ∧ ∃ c d, t = doneWith { s with chain := c, dout := d } := by
  simp only [exec, execModeBlock] at h
  split at h
  · cases h; exact .inl ⟨_, rfl⟩
  · rename_i hm
    split at h
    · cases h; exact .inl ⟨_, rfl⟩
    · split at h <;> cases h
      · exact .inl ⟨_, rfl⟩
      all_goals exact .inr ⟨hm, _, _, rfl⟩

/-- The elements that some command writes, each unchanged by every command that does not (10_state.md R22 to R30, R33). -/
theorem exec_keeps_unwritten {i : Instr} (h : exec i s = .next t) :
    (writesGr i = false → t.gr = s.gr) ∧ (writesDout i = false → t.dout = s.dout) ∧
    (writesSt i = false → t.st = s.st) ∧ (writesRk i = false → t.rk = s.rk ∧ t.rkValid = s.rkValid) ∧
    (writesChain i = false → t.chain = s.chain ∧ t.mode = s.mode) ∧
    ((∀ m, i ≠ .modeStart m true) → t.iv = s.iv ∧ t.rngDraws = s.rngDraws) := by
  cases i with
  | addRoundKey idx =>
    obtain ⟨code, rfl⟩ | ⟨st, rfl⟩ := execAddRoundKey_next h <;> simp [writesSt]
  | modeStart m rng =>
    obtain ⟨code, rfl⟩ | rfl := execModeStart_next h
    · simp
    · cases rng <;> simp [writesDout, writesRk, writesChain, beginMessage, startPrefix, afterPrefix]
  | modeBlock =>
    obtain ⟨code, rfl⟩ | ⟨-, c, d, rfl⟩ := execModeBlock_next h <;> simp [writesDout, writesChain]
  | gfMul | gfInv | sboxFwd | sboxInv => cases h; simp [writesGr]
  | loadState | subBytes | invSubBytes | shiftRows | invShiftRows | mixColumns | invMixColumns =>
    cases h; simp [writesSt]
  | storeState => cases h; simp [writesDout]
  | keyExpand => cases h; simp [writesRk]
  | encryptBlock | decryptBlock => cases h; simp [writesDout, writesRk]
  | modeEnd => cases h; simp [writesChain]
  | nop => cases h; simp

/-- The elements that no command writes (10_state.md R22 to R24, R32, R34, R38). -/
theorem exec_keeps_common {i : Instr} (h : exec i s = .next t) :
    t.key = s.key ∧ t.din = s.din ∧ t.ga = s.ga ∧ t.gb = s.gb ∧ t.cmdLast = s.cmdLast ∧ t.sboxReady = s.sboxReady ∧
      t.ovr = s.ovr ∧ t.inputs = s.inputs ∧ t.busLog = s.busLog := by
  obtain ⟨code, -, rfl⟩ | ⟨u, rfl, hkey, hdin, hga, hgb, hcmd, hready, hovr, hin, hlog, -, -⟩ := exec_cases h
  · simp
  · simp [hkey, hdin, hga, hgb, hcmd, hready, hovr, hin, hlog]

end Commands

/-- Settles O53: the elements no command writes by exec_keeps_common, the others by exec_keeps_unwritten. -/
theorem commandsWriteOnlyTheirElements : Obligations.CommandsWriteOnlyTheirElements :=
  fun _ _ _ h => ⟨exec_keeps_common h, exec_keeps_unwritten h⟩

end Sys2Proof.Machine
end

section
/-! PROOFS. STATUS by field, what a host access does and keeps, and the words a command leaves (20_memory.md R54 to R68). -/

namespace Sys2Proof.Machine

/-- The words of the all-zero Block. -/
@[simp] theorem blockWord_zeroBlock (k : Fin 4) : blockWord zeroBlock k = 0 := by
  revert k; decide

/-- The words of the ROM windows depend on the state through SBOX_READY only (20_memory.md R63). -/
theorem romWord_congr {s t : State} (h : t.sboxReady = s.sboxReady) (entry : Byte → Byte) (k : Fin 64) :
    romWord t entry k = romWord s entry k := by
  simp [romWord, building, h]

section Status

variable (s : State)

theorem statusWord_done : (statusWord s).getLsbD 1 = s.done := by simp [statusWord, flagAt]
theorem statusWord_sboxReady : (statusWord s).getLsbD 3 = s.sboxReady := by simp [statusWord, flagAt]
theorem statusWord_rkValid : (statusWord s).getLsbD 4 = s.rkValid := by simp [statusWord, flagAt]
theorem statusWord_ovr : (statusWord s).getLsbD 5 = s.ovr := by simp [statusWord, flagAt]

theorem statusWord_modeBits : (statusWord s).extractLsb' 6 2 = modeBits s.mode := by
  apply BitVec.eq_of_getLsbD_eq
  intro i hi
  interval_cases i <;> simp [statusWord, flagAt]

theorem statusWord_errBits : (statusWord s).extractLsb' 8 4 = errBits s.errcode := by
  apply BitVec.eq_of_getLsbD_eq
  intro i hi
  interval_cases i <;> simp [statusWord, flagAt]

/-- The reserved bits of STATUS (10_state.md R39; 20_memory.md R62). -/
theorem statusWord_reserved {n : Nat} (hn : 12 ≤ n) : (statusWord s).getLsbD n = false := by
  have herr : (errBits s.errcode).getLsbD (n - 8) = false := BitVec.getLsbD_of_ge _ _ (by omega)
  have hmode : (modeBits s.mode).getLsbD (n - 6) = false := BitVec.getLsbD_of_ge _ _ (by omega)
  have hflag (k : Nat) (hk : k < 12) : n - k ≠ 0 := by omega
  have h0 : n ≠ 0 := by omega
  simp [statusWord, flagAt, herr, hmode, hflag, h0]

theorem statusWord_reservedBits : (statusWord s).extractLsb' 12 20 = 0 := by
  apply BitVec.eq_of_getLsbD_eq
  intro i hi
  simp [statusWord_reserved s (n := 12 + i) (by omega)]

/-- ERR shows that some error code is recorded (10_state.md R39). -/
theorem errFlag_iff : errFlag s = true ↔ s.errcode ≠ .ok := by
  cases h : s.errcode <;> simp [errFlag, errBits, h]

/-- The OVR that a write to STATUS leaves: bit 5 clears it (10_state.md R39). -/
theorem statusWrite_eq (w : Word) : statusWrite w s = { s with ovr := s.ovr && !w.getLsbD 5 } := by
  unfold statusWrite
  cases h : w.getLsbD 5 <;> simp

end Status

/-- The host may use the core exactly when it is not busy (20_memory.md R67). -/
theorem busy_eq_false_iff (s : State) : busy s = false ↔ Ready s := by
  simp [busy, building, Ready]

section Host

variable {s t : State}

/-- The host's write to a word of the window, taken as its turn. -/
theorem step_memWrite {off : Nat} {w : Word} {rest : List Event} (ho : WordOffset off)
    (hi : s.inputs = memWrite off w :: rest) :
    step s = .next (windowAccess off 4 (.write w) (setInputs rest s)) := by
  have hlt : off < 4096 := ho.1
  simp [step_host hi, hostAccess, hlt]

/-- An accepted write while the core is not busy: the register's own effect (20_memory.md R54). -/
theorem busWrite_word {off : Nat} {w : Word} (ho : WordOffset off) (hb : busy s = false) :
    busWrite off 4 w s = (.okay, windowWrite off w s) := by
  simp [busWrite, accepted, ho.2, hb]

/-- An accepted write while the core is not busy, as a step: the register's own effect, the event used up, the response
recorded (20_memory.md R66). -/
theorem step_memWrite_idle {off : Nat} {w : Word} {rest : List Event} (ho : WordOffset off) (hb : busy s = false)
    (hi : s.inputs = memWrite off w :: rest) :
    step s = .next { windowWrite off w s with inputs := rest, busLog := ⟨off, .write w, .okay, 0⟩ :: s.busLog } := by
  obtain ⟨-, -, -, -, -, -, -, -, -, hlog⟩ := windowWrite_keeps off w s
  rw [step_memWrite ho hi]
  simp only [windowAccess, busWrite_word ho ((busy_setInputs rest s).trans hb), windowWrite_setInputs]
  simp only [logged, setInputs, hlog]

/-- What a host access that reaches the window keeps: every element that only the core writes (10_state.md R22, R25, R27 to
R29, R32, R33). -/
theorem windowAccess_keeps {off size : Nat} {op : BusOp} (h : t = windowAccess off size op s) :
    t.gr = s.gr ∧ t.dout = s.dout ∧ t.chain = s.chain ∧ t.st = s.st ∧ t.rk = s.rk ∧ t.mode = s.mode ∧
      t.sboxReady = s.sboxReady ∧ t.rngDraws = s.rngDraws := by
  subst h
  cases op with
  | read => simp [windowAccess]
  | write w =>
    obtain ⟨-, h⟩ | ⟨-, -, h⟩ | ⟨-, -, h⟩ := busWrite_cases off size w s
    · simp [windowAccess, h]
    · simp [windowAccess, h]
    · obtain ⟨hgr, hdout, hchain, hst, hrk, hmode, hready, hdraws, -, -⟩ := windowWrite_keeps off w s
      simp [windowAccess, h, hgr, hdout, hchain, hst, hrk, hmode, hready, hdraws]

end Host

/-- Settles O13: the invariant's clause on a pending command, read off the bits of STATUS. -/
theorem statusWhileBusy : Obligations.StatusWhileBusy := by
  intro s w hinv hp
  obtain ⟨-, hdone, herr⟩ := hinv.pending w hp
  have hread : windowRead 0x004 s = statusWord s := rfl
  rw [hread, statusWord_busy, statusWord_done, statusWord_err, statusWord_errBits]
  simp [busy, hp, hdone, errFlag, errBits, herr]

/-- Settles O19: the bits of statusWord, statusWrite_eq, and the step of an accepted write. -/
theorem statusFieldsByBit : Obligations.StatusFieldsByBit := by
  have hstatus (w : Word) (s : State) : windowWrite 0x004 w s = { s with ovr := s.ovr && !w.getLsbD 5 } :=
    statusWrite_eq s w
  have hoff : WordOffset 0x004 := ⟨by omega, rfl⟩
  refine ⟨fun s => ⟨statusWord_busy s, statusWord_done s, ?_, statusWord_sboxReady s, statusWord_rkValid s,
    statusWord_ovr s, ?_, ?_, statusWord_reservedBits s⟩, fun s w hb => ?_, fun s w rest hb hi => ?_,
    fun s off w rest ho hb hi => ?_⟩
  · rw [← errFlag_iff, ← statusWord_err]; rfl
  · refine (statusWord_modeBits s).trans ?_
    cases s.mode <;> rfl
  · refine (statusWord_errBits s).trans ?_
    cases s.errcode <;> rfl
  · rw [busWrite_word hoff hb, hstatus]
  · rw [step_memWrite_idle hoff hb hi, hstatus]
  · rw [step_memWrite_idle ho hb hi, busWrite_word ho hb]

/-- Settles O23: an answered access reached the window, and windowAccess keeps what only the core writes. -/
theorem hostCannotWriteResults : Obligations.HostCannotWriteResults := by
  intro s t a rest hi h
  rw [step_host hi] at h
  obtain ⟨off, -, ht⟩ := hostAccess_next h
  simpa using windowAccess_keeps ht

/-- Settles O54: row by row of the register map, the word reads elements that the command does not write. -/
theorem commandsLeaveOtherWordsUnchanged : Obligations.CommandsLeaveOtherWordsUnchanged := by
  intro i s t off h ⟨_, hal⟩ hstatus hgr hdout hchain hrk hiv
  obtain ⟨keyEq, dinEq, gaEq, gbEq, cmdEq, readyEq, -⟩ := exec_keeps_common h
  obtain ⟨grEq, doutEq, -, rkEq, chainEq, ivEq⟩ := exec_keeps_unwritten h
  obtain ⟨-, hr⟩ | ⟨_, _, hr⟩ | ⟨_, _, hr⟩ | ⟨-, -, hr⟩ | ⟨-, -, hr⟩ | ⟨hlo, hhi, hr⟩ | ⟨hlo, hhi, hr⟩ |
    ⟨hlo, hhi, hr⟩ | ⟨-, -, hr⟩ | ⟨-, -, hr⟩ | ⟨hlo, hhi, n, hr⟩ | ⟨-, hr⟩ := regionOf_cases off
  · simp [windowRead, hr, cmdEq]
  · exact absurd (by omega) hstatus
  · simp [windowRead, hr, gfWord, gaEq, gbEq, grEq (hgr (by omega))]
  · simp [windowRead, hr, keyEq]
  · simp [windowRead, hr, dinEq]
  · simp [windowRead, hr, doutEq (hdout ⟨hlo, hhi⟩)]
  · simp [windowRead, hr, ivEq (hiv ⟨hlo, hhi⟩)]
  · simp [windowRead, hr, chainEq (hchain ⟨hlo, hhi⟩)]
  · simp [windowRead, hr, romWord_congr readyEq]
  · simp [windowRead, hr, romWord_congr readyEq]
  · simp [windowRead, hr, rkEq (hrk ⟨hlo, hhi⟩)]
  · simp [windowRead, hr]

end Sys2Proof.Machine
end

section
/-! PROOFS. The state after reset, the invariant as every agent keeps it, and the stored round keys (10_state.md R42, R46). -/

namespace Sys2Proof.Machine

@[simp] theorem encodeState_zeroAesState : encodeState zeroAesState = zeroBlock := by decide

/-- Every round key of the file is zero after reset (10_state.md R42). -/
@[simp] theorem get_rk_reset (n : Fin 11) : State.reset.rk.get n = zeroAesState := by
  simp [State.reset, Vector.get_eq_getElem]

@[simp] theorem cell_zeroAesState (r c : Fin 4) : cell zeroAesState r c = 0 := by
  simp [cell, zeroAesState, Vector.get_eq_getElem]

/-- Every word but STATUS and those of the ROM windows reads 0 after reset (70_reset_and_hazards.md R312). -/
theorem windowRead_reset {off : Nat} (ho : WordOffset off) (hstatus : off ≠ 0x004) (hrom : off < 0x100 ∨ 0x300 ≤ off) :
    windowRead off State.reset = 0 := by
  obtain ⟨-, hal⟩ := ho
  obtain ⟨-, hr⟩ | ⟨_, _, hr⟩ | ⟨-, -, hr⟩ | ⟨-, -, hr⟩ | ⟨-, -, hr⟩ | ⟨-, -, hr⟩ | ⟨-, -, hr⟩ | ⟨-, -, hr⟩ |
    ⟨_, _, hr⟩ | ⟨_, _, hr⟩ | ⟨-, -, n, hr⟩ | ⟨-, hr⟩ := regionOf_cases off
  · simp [windowRead, hr, State.reset]
  · exact absurd (by omega) hstatus
  · simp only [windowRead, hr]; decide
  · simp [windowRead, hr, State.reset]
  · simp [windowRead, hr, State.reset]
  · simp [windowRead, hr, State.reset]
  · simp [windowRead, hr, State.reset]
  · simp [windowRead, hr, State.reset]
  · omega
  · omega
  · simp [windowRead, hr]
  · simp [windowRead, hr]

/-- Without valid round keys ADD_ROUND_KEY of a legal index fails (43_round_transforms.md R183). -/
theorem exec_addRoundKey_invalid {s : State} {idx : BitVec 4} (hidx : idx.toNat ≤ 10) (hv : s.rkValid = false) :
    exec (.addRoundKey idx) s = .next (failedWith .sequenceErr s) := by
  have hlt : idx.toNat < 11 := by omega
  simp [exec, execAddRoundKey, roundKeyOperand, hlt, hv, raiseCmdError, completeWith_eq_failedWith]

/-- Settles O25: windowRead_reset for the words, and the two commands fail without round keys. -/
theorem resetStateAsSpecified : Obligations.ResetStateAsSpecified :=
  ⟨rfl, fun _ => windowRead_reset, cell_zeroAesState, rfl, rfl, fun _ hidx => exec_addRoundKey_invalid hidx rfl, rfl⟩

/-- Settles O26: after reset RK_VALID is 0, nothing is pending, CHAIN is 0, no build runs and no code is recorded. -/
theorem resetMeetsInvariant : Obligations.ResetMeetsInvariant where
  rk := nofun
  pending := nofun
  idle := fun _ => rfl
  build := nofun
  err := fun h => absurd rfl h

section Invariant

variable {s t : State}

/-- The clause on the build says nothing outside it. -/
theorem BuildInv.of_sboxReady (h : s.sboxReady = true) : BuildInv s :=
  fun hb => absurd (h.symm.trans hb) (by decide)

/-- The invariant does not look at OVR, nor at the three fields of the model's own. -/
theorem Inv.with_outside (h : Inv s) (ovr : Bool) (draws : Nat) (es : List Event) (log : List BusRecord) :
    Inv { s with ovr := ovr, rngDraws := draws, inputs := es, busLog := log } where
  rk := h.rk
  pending := h.pending
  idle := h.idle
  build := fun hb =>
    congrArg (fun u : State => { u with ovr := ovr, rngDraws := draws, inputs := es, busLog := log }) (h.build hb)
  err := h.err

theorem Inv.setInputs (h : Inv s) (es : List Event) : Inv (setInputs es s) :=
  h.with_outside s.ovr s.rngDraws es s.busLog

theorem Inv.logged (h : Inv s) (r : BusRecord) : Inv (logged r s) :=
  h.with_outside s.ovr s.rngDraws s.inputs (r :: s.busLog)

theorem Inv.setOvr (h : Inv s) (b : Bool) : Inv { s with ovr := b } :=
  h.with_outside b s.rngDraws s.inputs s.busLog

/-- Outside the build the invariant does not look at the host's operand registers GA, GB, DIN and IV. -/
theorem Inv.with_operands (h : Inv s) (hready : s.sboxReady = true) (ga gb : Byte) (din iv : Block) :
    Inv { s with ga := ga, gb := gb, din := din, iv := iv } where
  rk := h.rk
  pending := h.pending
  idle := h.idle
  build := .of_sboxReady hready
  err := h.err

/-- A new KEY comes with RK_VALID 0, which asks nothing of RK (20_memory.md R56). -/
theorem Inv.with_key (h : Inv s) (hready : s.sboxReady = true) (key : Block) :
    Inv { s with key := key, rkValid := false } where
  rk := nofun
  pending := h.pending
  idle := h.idle
  build := .of_sboxReady hready
  err := h.err

/-- Issue: the pending command is CMD_LAST, with DONE and ERRCODE 0 (30_encoding.md R91). -/
theorem Inv.issue (h : Inv s) (hready : s.sboxReady = true) (w : Word) : Inv (issue w s) where
  rk := h.rk
  pending := fun _ hv => ⟨Option.some.inj hv, rfl, rfl⟩
  idle := h.idle
  build := .of_sboxReady hready
  err := fun herr => absurd rfl herr

/-- A write while the core is not busy keeps the invariant; one to KEY clears RK_VALID (20_memory.md R56). -/
theorem Inv.windowWrite (h : Inv s) (hb : busy s = false) (off : Nat) (w : Word) : Inv (windowWrite off w s) := by
  obtain ⟨-, hready⟩ := (busy_eq_false_iff s).1 hb
  unfold Machine.windowWrite
  split
  case h_1 => exact h.issue hready w
  case h_2 => rw [statusWrite_eq]; exact h.setOvr _
  case h_3 => exact h.with_operands hready _ _ s.din s.iv
  case h_4 => exact h.with_key hready _
  case h_5 => exact h.with_operands hready s.ga s.gb _ s.iv
  case h_6 => exact h.with_operands hready s.ga s.gb s.din _
  all_goals exact h

/-- A host access keeps the invariant: a read or a refused write changes only the log, a write while busy OVR too. -/
theorem Inv.windowAccess (h : Inv s) (off size : Nat) (op : BusOp) : Inv (windowAccess off size op s) := by
  cases op with
  | read => exact h.logged _
  | write w =>
    refine Inv.logged ?_ _
    obtain ⟨-, hw⟩ | ⟨-, -, hw⟩ | ⟨-, hb, hw⟩ := busWrite_cases off size w s <;> rw [hw]
    · exact h
    · exact h.setOvr true
    · exact h.windowWrite hb off w

/-- The reset input: the build starts over the reset values (70_reset_and_hazards.md R310). -/
theorem inv_resetStep (s : State) : Inv (resetStep s) where
  rk := nofun
  pending := nofun
  idle := fun _ => rfl
  build := fun _ => rfl
  err := fun h => absurd rfl h

/-- The end of the build: the reset state but for OVR and what belongs to the outside (70_reset_and_hazards.md R311). -/
theorem Inv.endBuild (h : Inv s) (hb : building s = true) : Inv (endBuild s) := by
  have hs := h.build (by simpa [building] using hb)
  have hend : Machine.endBuild s =
      { State.reset with ovr := s.ovr, rngDraws := s.rngDraws, inputs := s.inputs, busLog := s.busLog } :=
    congrArg Machine.endBuild hs
  rw [hend]
  exact resetMeetsInvariant.with_outside _ _ _ _

/-- A completion with a code: nothing is pending any more, and DONE is 1 (30_encoding.md R93). -/
theorem Inv.failedWith (h : Inv s) (hready : s.sboxReady = true) (code : ErrCode) : Inv (failedWith code s) where
  rk := h.rk
  pending := nofun
  idle := h.idle
  build := .of_sboxReady hready
  err := fun _ => rfl

/-- Every command keeps RK the expansion of KEY while RK_VALID = 1: it writes neither, or both (10_state.md R46). -/
theorem RkInv.exec {i : Instr} (hrk : RkInv s) (h : exec i s = .next t) : RkInv t := by
  obtain ⟨code, -, rfl⟩ | ⟨u, rfl, hkey, -, -, -, -, -, -, -, -, hkeep, hwrite⟩ := exec_cases h
  · exact hrk
  · intro hv
    show u.rk = keySchedule (decodeBlock u.key)
    rw [hkey]
    cases hw : writesRk i with
    | false => rw [(hkeep hw).1]; exact hrk ((hkeep hw).2 ▸ hv)
    | true => exact (hwrite hw).1

/-- Every command keeps CHAIN 0 in IDLE: MODE_START leaves IDLE, MODE_BLOCK fails in it, MODE_END enters it with CHAIN 0
(45_mode_controller.md R227). -/
theorem IdleInv.exec {i : Instr} (hidle : IdleInv s) (h : exec i s = .next t) : IdleInv t := by
  cases hw : writesChain i with
  | false =>
    obtain ⟨-, -, -, -, hchain, -⟩ := exec_keeps_unwritten h
    intro hm
    rw [(hchain hw).1]
    exact hidle ((hchain hw).2 ▸ hm)
  | true =>
    cases i with
    | modeStart m rng =>
      obtain ⟨code, rfl⟩ | rfl := execModeStart_next h
      · exact hidle
      · intro hm
        cases m <;> simp [beginMessage, startedMode] at hm
    | modeBlock =>
      obtain ⟨code, rfl⟩ | ⟨hne, c, d, rfl⟩ := execModeBlock_next h
      · exact hidle
      · exact fun hm => absurd hm hne
    | modeEnd => cases h; exact fun _ => rfl
    | _ => cases hw

/-- The completion of a command keeps the invariant. -/
theorem Inv.exec (hinv : Inv s) (hready : s.sboxReady = true) {i : Instr} (h : exec i s = .next t) : Inv t := by
  obtain ⟨-, -, -, -, -, hreadyEq, -⟩ := exec_keeps_common h
  have hdone : t.pending = none ∧ t.done = true := by
    obtain ⟨code, -, rfl⟩ | ⟨u, rfl, -⟩ := exec_cases h <;> simp
  exact
    { rk := hinv.rk.exec h
      pending := by simp [PendingInv, hdone]
      idle := hinv.idle.exec h
      build := .of_sboxReady (hreadyEq.trans hready)
      err := fun _ => hdone.2 }

end Invariant

/-- Settles O27: one lemma for each thing a step can be, over the state with the turn used up. -/
theorem everyStepKeepsInvariant : Obligations.EveryStepKeepsInvariant := by
  intro s t h hstep
  have hready (hb : building s = false) : s.sboxReady = true := by simpa [building] using hb
  obtain ⟨a, rest, off, -, -, rfl⟩ | ⟨rest, -, rfl⟩ | ⟨-, hb, rfl⟩ | ⟨-, -, -, rfl⟩ | ⟨w, code, -, hb, -, -, rfl⟩ |
    ⟨w, i, -, hb, -, -, hexec⟩ := step_cases hstep
  · exact (h.setInputs rest).windowAccess off a.size a.op
  · exact inv_resetStep _
  · exact (h.setInputs s.inputs.tail).endBuild hb
  · exact h.setInputs _
  · exact (h.setInputs s.inputs.tail).failedWith (hready hb) code
  · exact (h.setInputs s.inputs.tail).exec (hready hb) hexec

section StoredKeys

variable {s : State}

theorem exec_modeBlock_cbcEnc (hm : s.mode = .cbcEnc) (hv : s.rkValid = true) :
    exec .modeBlock s = .next (doneWith (cbcEncStep s)) := by
  simp [exec, execModeBlock, hm, hv, commit]

theorem exec_modeBlock_cbcDec (hm : s.mode = .cbcDec) (hv : s.rkValid = true) :
    exec .modeBlock s = .next (doneWith (cbcDecStep s)) := by
  simp [exec, execModeBlock, hm, hv, commit]

theorem exec_modeBlock_ctr (hm : s.mode = .ctr) (hv : s.rkValid = true) :
    exec .modeBlock s = .next (doneWith (ctrStep s)) := by
  simp [exec, execModeBlock, hm, hv, commit]

/-- The ciphers under KEY are those under the stored round keys while RK_VALID = 1 (10_state.md R46). -/
theorem RkInv.encryptWith_rk (h : RkInv s) (hv : s.rkValid = true) (p : Block) :
    encodeState (encryptWith s.rk (decodeBlock p)) = encryptBlock p s.key := by
  rw [h hv, encryptBlock]

theorem RkInv.decryptWith_rk (h : RkInv s) (hv : s.rkValid = true) (c : Block) :
    encodeState (decryptWith s.rk (decodeBlock c)) = decryptBlock c s.key := by
  rw [h hv, decryptBlock]

end StoredKeys

/-- Settles O48: RK is the expansion of KEY, so the ciphers under either are the same. -/
theorem modeBlockWithStoredRoundKeys : Obligations.ModeBlockWithStoredRoundKeys := by
  intro s hinv hv
  simp only [hinv.rk.encryptWith_rk hv, hinv.rk.decryptWith_rk hv]
  exact ⟨fun hm => ⟨_, rfl, exec_modeBlock_cbcEnc hm hv⟩, fun hm => exec_modeBlock_cbcDec hm hv,
    fun hm => exec_modeBlock_ctr hm hv⟩

end Sys2Proof.Machine
end

section
/-! PROOFS. What a host access does to the core, word by word of the register window (20_memory.md R51 to R68). -/

namespace Sys2Proof.Machine

/-- Encoding a decoded Block gives the Block back (41_state_codec.md R142). -/
@[simp] theorem encodeState_decodeBlock (b : Block) : encodeState (decodeBlock b) = b := by
  apply block_ext
  intro i
  simp only [encodeState, decodeBlock, get_mkBlock, cell_mkState]
  congr 1
  exact Fin.ext (Nat.div_add_mod i.val 4)

/-- Without valid round keys MODE_BLOCK fails, in every mode (45_mode_controller.md R224). -/
theorem exec_modeBlock_invalid {s : State} (hv : s.rkValid = false) :
    exec .modeBlock s = .next (failedWith .sequenceErr s) := by
  simp [exec, execModeBlock, hv, raiseCmdError, completeWith_eq_failedWith]

section Accesses

variable {s : State} {off : Nat}

/-- An access that starts inside the window reaches it, as the host's turn (20_memory.md R50). -/
theorem step_inside {size : Nat} {op : BusOp} {rest : List Event} (hlt : off < 0x1000)
    (hi : s.inputs = .host ⟨Config.coreBase + off, size, op⟩ :: rest) :
    step s = .next (windowAccess off size op (setInputs rest s)) := by
  simp [step_host hi, hostAccess, hlt]

/-- An address outside the window has no offset (20_memory.md R50). -/
theorem windowOffset_outside {addr : Nat} (h : addr < Config.coreBase ∨ Config.coreBase + 0x1000 ≤ addr) :
    windowOffset addr = none :=
  if_neg (by omega)

/-- A read does not look at the events still to come. -/
theorem windowRead_setInputs (es : List Event) : windowRead off (setInputs es s) = windowRead off s := rfl

/-- Only aligned 32-bit accesses are accepted (20_memory.md R51). -/
theorem accepted_eq_false {size : Nat} (h : ¬(size = 4 ∧ off % 4 = 0)) : accepted off size = false := by
  simpa [accepted] using h

/-- A refused access changes only the host's log (20_memory.md R52). -/
theorem windowAccess_refused {size : Nat} (h : accepted off size = false) (op : BusOp) :
    windowAccess off size op s = logged ⟨off, op, .slverr, 0⟩ s := by
  cases op <;> simp [windowAccess, busRead, busWrite, h]

/-- An accepted write while the core is busy sets OVR and does nothing else (20_memory.md R67). -/
theorem busWrite_busy (hal : off % 4 = 0) (hb : busy s = true) (w : Word) :
    busWrite off 4 w s = (.okay, { s with ovr := true }) := by
  simp [busWrite, accepted, hal, hb]

end Accesses

/-- Settles O11: the busy branch of a write, as a step. -/
theorem busyWriteIsIgnoredAndSetsOvr : Obligations.BusyWriteIsIgnoredAndSetsOvr := by
  refine ⟨fun s => ?_, fun s off w rest ho hb hi => ?_⟩
  · simp [busy, building, Option.isSome_iff_ne_none]
  · rw [step_memWrite ho hi, windowAccess, busWrite_busy ho.2 ((busy_setInputs rest s).trans hb)]
    rfl

/-- Settles O12: an accepted read answers with the word, and the log and the turn are all that changes. -/
theorem readHasNoSideEffect : Obligations.ReadHasNoSideEffect := by
  refine ⟨fun s off rest ho hi => ?_, fun s => rfl⟩
  rw [step_inside ho.1 hi, windowAccess, busRead_word ho, windowRead_setInputs]
  rfl

/-- Settles O14: the access reaches the window, which refuses it. -/
theorem refusedAccessGetsSlverr : Obligations.RefusedAccessGetsSlverr := by
  intro s off size op rest hlt hsize hi
  rw [step_inside hlt hi, windowAccess_refused (accepted_eq_false hsize)]
  rfl

/-- Settles O15: the address has no offset in the window. -/
theorem outsideWindowStops : Obligations.OutsideWindowStops := by
  intro s a rest hout hi
  rw [step_host hi, hostAccess, windowOffset_outside hout]

/-! ## The words of each register -/

section Registers

variable (s : State) (k : Fin 4) (w : Word)

theorem windowRead_key : windowRead (0x010 + 4 * k.val) s = blockWord s.key k := by rw [windowRead, regionOf_key]
theorem windowRead_din : windowRead (0x020 + 4 * k.val) s = blockWord s.din k := by rw [windowRead, regionOf_din]
theorem windowRead_dout : windowRead (0x030 + 4 * k.val) s = blockWord s.dout k := by rw [windowRead, regionOf_dout]
theorem windowRead_iv : windowRead (0x040 + 4 * k.val) s = blockWord s.iv k := by rw [windowRead, regionOf_iv]
theorem windowRead_chain : windowRead (0x050 + 4 * k.val) s = blockWord s.chain k := by
  rw [windowRead, regionOf_chain]

theorem windowRead_rk (n : Fin 11) :
    windowRead (0x300 + 16 * n.val + 4 * k.val) s = blockWord (encodeState (s.rk.get n)) k := by
  rw [windowRead, regionOf_rk]

theorem windowRead_sbox (k : Fin 64) : windowRead (0x100 + 4 * k.val) s = romWord s sbox k := by
  rw [windowRead, regionOf_sbox]
theorem windowRead_invSbox (k : Fin 64) : windowRead (0x200 + 4 * k.val) s = romWord s invSbox k := by
  rw [windowRead, regionOf_invSbox]

theorem windowWrite_key :
    windowWrite (0x010 + 4 * k.val) w s = { s with key := setBlockWord s.key k w, rkValid := false } := by
  rw [windowWrite, regionOf_key]
theorem windowWrite_din : windowWrite (0x020 + 4 * k.val) w s = { s with din := setBlockWord s.din k w } := by
  rw [windowWrite, regionOf_din]
theorem windowWrite_iv : windowWrite (0x040 + 4 * k.val) w s = { s with iv := setBlockWord s.iv k w } := by
  rw [windowWrite, regionOf_iv]

theorem windowWrite_status : windowWrite 0x004 w s = { s with ovr := s.ovr && !w.getLsbD 5 } := statusWrite_eq s w

theorem windowWrite_gf : windowWrite 0x008 w s = { s with ga := wordByte w 0, gb := wordByte w 1 } := rfl

/-- The value of GF, its top byte left out (10_state.md R41). -/
theorem gfWord_eq : gfWord s = (s.gr.setWidth 32 <<< 16) ||| (s.gb.setWidth 32 <<< 8) ||| s.ga.setWidth 32 := by
  simp [gfWord, packWord]

end Registers

/-- The rows of the register map whose words ignore every write (20_memory.md R61 to R64). -/
def Region.readOnly : Region → Bool
  | .dout _ | .chain _ | .sbox _ | .invSbox _ | .rk _ _ | .reserved => true
  | .cmd | .status | .gf | .key _ | .din _ | .iv _ => false

/-- A write to a word of a read-only row answers OKAY and changes nothing (20_memory.md R61 to R64). -/
theorem busWrite_readOnly {s : State} {off : Nat} {r : Region} (ho : WordOffset off) (hb : busy s = false)
    (hr : regionOf off = r) (hro : r.readOnly = true) (w : Word) : busWrite off 4 w s = (.okay, s) := by
  rw [busWrite_word ho hb, windowWrite, hr]
  cases r with
  | dout | chain | sbox | invSbox | rk | reserved => rfl
  | cmd | status | gf | key | din | iv => cases hro

/-- The reserved offsets of the register map (20_memory.md R62). -/
theorem regionOf_reserved {off : Nat} (hal : off % 4 = 0)
    (h : off = 0x00C ∨ 0x060 ≤ off ∧ off ≤ 0x0FF ∨ 0x3B0 ≤ off ∧ off ≤ 0xFFF) : regionOf off = .reserved := by
  rcases h with rfl | h | h
  · rfl
  · simp (disch := omega) only [regionOf, if_neg, if_pos]
  · simp (disch := omega) only [regionOf, if_neg, dif_neg]

/-- The reserved bits of GF (10_state.md R41; 20_memory.md R62). -/
theorem gfWord_reserved (s : State) {n : Nat} (hn : 24 ≤ n) : (gfWord s).getLsbD n = false := by
  have hgr : s.gr.getLsbD (n - 16) = false := BitVec.getLsbD_of_ge _ _ (by omega)
  have hgb : s.gb.getLsbD (n - 8) = false := BitVec.getLsbD_of_ge _ _ (by omega)
  have hga : s.ga.getLsbD n = false := BitVec.getLsbD_of_ge _ _ (by omega)
  simp [gfWord_eq, hgr, hgb, hga]

/-- The three low byte lanes do not see the top byte masked away (20_memory.md R53). -/
theorem wordByte_and_mask (w : Word) {k : Nat} (hk : k < 3) : wordByte (w &&& 0x00FFFFFF) k = wordByte w k := by
  have hmask : ∀ n : Fin 24, (0x00FFFFFF : Word).getLsbD n.val = true := by decide
  apply BitVec.eq_of_getLsbD_eq
  intro i hi
  simp only [wordByte, BitVec.getLsbD_extractLsb', BitVec.getLsbD_and, hmask ⟨8 * k + i, by omega⟩, Bool.and_true]

/-- Settles O16: the reserved row reads 0 and is read-only; no field of STATUS or GF covers the reserved bits. -/
theorem reservedOffsetsReadZero : Obligations.ReservedOffsetsReadZero := by
  refine ⟨fun s off w hal h => ?_, fun s n => statusWord_reserved s, fun s n => gfWord_reserved s, fun s w => ?_,
    fun s w => ?_⟩
  · have hr := regionOf_reserved hal h
    have ho : WordOffset off := ⟨by omega, hal⟩
    refine ⟨?_, fun hb => busWrite_readOnly ho hb hr rfl w, fun hb => busWrite_busy hal hb w⟩
    rw [busRead_word ho, windowRead, hr]
  · simp [windowWrite_status]
  · simp only [windowWrite_gf, wordByte_and_mask w (k := 0) (by omega), wordByte_and_mask w (k := 1) (by omega)]

/-- Settles O17: the words of the five Block registers, byte by byte. -/
theorem blockRegistersByWord : Obligations.BlockRegistersByWord := by
  refine ⟨fun s k j => ?_, fun s k w hb => ⟨⟨_, ?_, get_setBlockWord s.key k w⟩, ⟨_, ?_, get_setBlockWord s.din k w⟩,
    ⟨_, ?_, get_setBlockWord s.iv k w⟩, ?_, ?_⟩⟩
  · simp only [windowRead_key, windowRead_din, windowRead_dout, windowRead_iv, windowRead_chain, wordByte_blockWord,
      and_self]
  · rw [busWrite_word ⟨by omega, by omega⟩ hb, windowWrite_key]
  · rw [busWrite_word ⟨by omega, by omega⟩ hb, windowWrite_din]
  · rw [busWrite_word ⟨by omega, by omega⟩ hb, windowWrite_iv]
  · exact busWrite_readOnly ⟨by omega, by omega⟩ hb (regionOf_dout k) rfl w
  · exact busWrite_readOnly ⟨by omega, by omega⟩ hb (regionOf_chain k) rfl w

/-- Settles O18: the write clears RK_VALID, and without it both commands fail. -/
theorem keyWriteInvalidatesRoundKeys : Obligations.KeyWriteInvalidatesRoundKeys := by
  intro s k w rest hb hi
  refine ⟨_, step_memWrite_idle ⟨by omega, by omega⟩ hb hi, ?_⟩
  rw [windowWrite_key]
  exact ⟨rfl, rfl, fun idx hidx => exec_addRoundKey_invalid hidx rfl, exec_modeBlock_invalid rfl⟩

/-- Settles O20: the value of GF, and the effect of its write at the bus and as a step. -/
theorem gfRegisterReadAndWrite : Obligations.GfRegisterReadAndWrite := by
  have ho : WordOffset 0x008 := ⟨by omega, rfl⟩
  refine ⟨fun s => ?_, fun s w hb => busWrite_word ho hb, fun s w rest hb hi => step_memWrite_idle ho hb hi⟩
  rw [busRead_word ho, ← gfWord_eq]
  rfl

section Rom

variable {s : State} (entry : Byte → Byte) (k : Fin 64)

/-- Byte j of word k of a table window, once the build has ended (20_memory.md R63). -/
theorem wordByte_romWord (h : s.sboxReady = true) (j : Fin 4) :
    wordByte (romWord s entry k) j.val = entry (BitVec.ofNat 8 (4 * k.val + j.val)) := by
  fin_cases j <;> simp [romWord, building, h]

/-- The table windows read 0 during the build (70_reset_and_hazards.md R311). -/
theorem romWord_building (h : s.sboxReady = false) : romWord s entry k = 0 := by
  simp [romWord, building, h]

end Rom

/-- Settles O21: the words of the two tables, and both rows read-only. -/
theorem romWindowsReadTheTables : Obligations.RomWindowsReadTheTables := by
  refine ⟨fun s k j h => ?_, fun s k h => ?_, fun s k w hb => ⟨?_, ?_⟩⟩
  · rw [windowRead_sbox, windowRead_invSbox]
    exact ⟨wordByte_romWord sbox k h j, wordByte_romWord invSbox k h j⟩
  · rw [windowRead_sbox, windowRead_invSbox]
    exact ⟨romWord_building sbox k h, romWord_building invSbox k h⟩
  · exact busWrite_readOnly ⟨by omega, by omega⟩ hb (regionOf_sbox k) rfl w
  · exact busWrite_readOnly ⟨by omega, by omega⟩ hb (regionOf_invSbox k) rfl w

/-- Settles O22: the words of the round-key file, read-only; RK[0] of the expansion of KEY is KEY, decoded. -/
theorem roundKeyWindow : Obligations.RoundKeyWindow := by
  refine ⟨fun s n k j => ?_, fun s n k w hb => ?_, fun s hinv hv => ?_⟩
  · rw [windowRead_rk, wordByte_blockWord]
  · exact busWrite_readOnly ⟨by omega, by omega⟩ hb (regionOf_rk n k) rfl w
  · rw [hinv.rk hv, get_keySchedule]
    exact encodeState_decodeBlock s.key

end Sys2Proof.Machine
end

section
/-! PROOFS. The decoder and the encoder: the fields of a Word, what decoding answers word by word, and the round trip
(30_encoding.md R80 to R88). -/

namespace Sys2Proof

/-- A Word is its three fields (30_encoding.md R80). -/
theorem word_eq_iff_fields {v w : Word} :
    v = w ↔ cmdRsv v = cmdRsv w ∧ cmdOp v = cmdOp w ∧ cmdArg v = cmdArg w := by
  refine ⟨fun h => h ▸ ⟨rfl, rfl, rfl⟩, fun ⟨hrsv, hop, harg⟩ => ?_⟩
  have hconcat (u : Word) : cmdRsv u ++ cmdArg u ++ cmdOp u = u := by
    apply BitVec.eq_of_getLsbD_eq
    intro n hn
    simp only [cmdRsv, cmdArg, cmdOp, BitVec.getLsbD_append, BitVec.getLsbD_extractLsb']
    split
    · simp [*]
    · split
      · simp [show n - 8 < 4 by omega, show 8 + (n - 8) = n by omega]
      · simp [show n - 8 - 4 < 20 by omega, show 12 + (n - 8 - 4) = n by omega]
  rw [← hconcat v, hrsv, hop, harg, hconcat]

/-- The words that a command's encoding is: RSV = 0 and its own OP and ARG (30_encoding.md R80, R83). -/
theorem encode_eq_iff {i : Instr} {w : Word} :
    encode i = w ↔ cmdRsv w = 0 ∧ cmdOp w = i.opcode ∧ cmdArg w = i.arg := by
  obtain ⟨hop, harg, hrsv⟩ := Laws.EncodingFields.of_layout i
  rw [eq_comm, word_eq_iff_fields, hrsv, hop, harg]

/-- The two words of MODE_START with mode field 3, by their fields (30_encoding.md R82, R85). -/
theorem mode3_word_iff {w : Word} :
    w = 0x00000330 ∨ w = 0x00000730 ↔ cmdRsv w = 0 ∧ cmdOp w = 0x30 ∧ (cmdArg w = 3 ∨ cmdArg w = 7) := by
  have h330 : w = 0x00000330 ↔ cmdRsv w = 0 ∧ cmdOp w = 0x30 ∧ cmdArg w = 3 := word_eq_iff_fields
  have h730 : w = 0x00000730 ↔ cmdRsv w = 0 ∧ cmdOp w = 0x30 ∧ cmdArg w = 7 := word_eq_iff_fields
  rw [h330, h730, and_or_left, and_or_left]

/-! ## What decoding answers -/

/-- The answer to a word: a well-formed command whose encoding it is, or the code of 30_encoding.md R85. -/
def DecodeAnswer (w : Word) : Except ErrCode Instr → Prop
  | .ok i => i.wf = true ∧ encode i = w
  | .error code => code = if w = 0x00000330 ∨ w = 0x00000730 then .unsupportedMode else .illegalCmd

/-- The answer to an ARG field of MODE_START, in the same way (30_encoding.md R82, R85). -/
def modeStartAnswer (arg : BitVec 4) : Except ErrCode Instr → Bool
  | .ok i => i.wf && decide (i.opcode = 0x30) && decide (i.arg = arg)
  | .error code => decide (code = if arg = 3 ∨ arg = 7 then .unsupportedMode else .illegalCmd)

/-- The sixteen ARG values of MODE_START. -/
theorem decodeModeStart_modeStartAnswer : ∀ arg, modeStartAnswer arg (decodeModeStart arg) = true := by decide

/-- The rows of the opcode map are well-formed commands with ARG = 0 under their own OP (30_encoding.md R84). -/
theorem plainOps_rows : ∀ p ∈ plainOps, p.2.wf = true ∧ p.2.opcode = p.1 ∧ p.2.arg = 0 := by decide

section Answers

variable {w : Word}

theorem DecodeAnswer.illegal (h : ¬(w = 0x00000330 ∨ w = 0x00000730)) : DecodeAnswer w (.error .illegalCmd) :=
  (if_neg h).symm

/-- A word with another OP is neither word of mode field 3. -/
theorem DecodeAnswer.illegal_of_op (hop : cmdOp w ≠ 0x30) : DecodeAnswer w (.error .illegalCmd) :=
  .illegal fun h => hop (mode3_word_iff.1 h).2.1

theorem decodeAddRoundKey_answer (hrsv : cmdRsv w = 0) (hop : cmdOp w = 0x18) :
    DecodeAnswer w (decodeAddRoundKey (cmdArg w)) := by
  unfold decodeAddRoundKey
  split
  · exact .illegal_of_op (by rw [hop]; decide)
  · next hle => exact ⟨decide_eq_true (not_lt.1 hle), encode_eq_iff.2 ⟨hrsv, hop, rfl⟩⟩

theorem decodeModeStart_answer (hrsv : cmdRsv w = 0) (hop : cmdOp w = 0x30) :
    DecodeAnswer w (decodeModeStart (cmdArg w)) := by
  have hans := decodeModeStart_modeStartAnswer (cmdArg w)
  cases hd : decodeModeStart (cmdArg w) with
  | ok i =>
    obtain ⟨⟨hwf, hopi⟩, hargi⟩ : (i.wf = true ∧ i.opcode = 0x30) ∧ i.arg = cmdArg w := by
      simpa [modeStartAnswer, hd] using hans
    exact ⟨hwf, encode_eq_iff.2 ⟨hrsv, hop.trans hopi.symm, hargi.symm⟩⟩
  | error code =>
    have hcode : code = if cmdArg w = 3 ∨ cmdArg w = 7 then .unsupportedMode else .illegalCmd := by
      simpa [modeStartAnswer, hd] using hans
    simpa only [DecodeAnswer, mode3_word_iff, hrsv, hop, true_and] using hcode

/-- A row of the opcode map, found by its OP. -/
theorem plainRow_answer {i : Instr} (hrsv : cmdRsv w = 0) (harg : cmdArg w = 0)
    (hrow : plainOps.lookup (cmdOp w) = some i) : DecodeAnswer w (.ok i) := by
  obtain ⟨before, rest, happ, -⟩ := List.lookup_eq_some_iff.1 hrow
  obtain ⟨hwf, hopi, hargi⟩ := plainOps_rows (cmdOp w, i) (by simp [happ])
  exact ⟨hwf, encode_eq_iff.2 ⟨hrsv, hopi.symm, harg.trans hargi.symm⟩⟩

end Answers

/-- Every word's answer, check by check in the order of 30_encoding.md R85. -/
theorem decodeCmd_answer (w : Word) : DecodeAnswer w (decodeCmd w) := by
  unfold decodeCmd
  split
  · next hrsv => exact .illegal fun h => hrsv (mode3_word_iff.1 h).1
  next hrsv =>
  rw [not_not] at hrsv
  split
  · next hop => exact decodeAddRoundKey_answer hrsv hop
  split
  · next hop => exact decodeModeStart_answer hrsv hop
  next hop =>
  split
  · exact .illegal_of_op hop
  · next hrow =>
    split
    · exact .illegal_of_op hop
    · next harg => exact plainRow_answer hrsv (not_not.1 harg) hrow

/-- What a word that decodes is. -/
theorem decodeCmd_ok {w : Word} {i : Instr} (h : decodeCmd w = .ok i) : i.wf = true ∧ encode i = w := by
  have hans := decodeCmd_answer w
  rwa [h] at hans

/-- The code of a word that does not decode. -/
theorem decodeCmd_error {w : Word} {code : ErrCode} (h : decodeCmd w = .error code) :
    code = if w = 0x00000330 ∨ w = 0x00000730 then .unsupportedMode else .illegalCmd := by
  have hans := decodeCmd_answer w
  rwa [h] at hans

/-- The encoding of a well-formed command decodes to it (30_encoding.md R85, R88). -/
theorem decodeCmd_encode {i : Instr} (hwf : i.wf = true) : decodeCmd (encode i) = .ok i := by
  obtain ⟨hop, harg, hrsv⟩ := Laws.EncodingFields.of_layout i
  cases i with
  | addRoundKey idx =>
    have hle : idx.toNat ≤ 10 := of_decide_eq_true hwf
    simp only [decodeCmd, hrsv, hop, harg, Instr.opcode, Instr.arg, decodeAddRoundKey, if_neg (not_lt.2 hle)]
    rfl
  | modeStart mode rng =>
    cases mode <;> cases rng
    case cbcDec.true => cases hwf
    all_goals rfl
  | _ => rfl

/-- The opcodes that 30_encoding.md R86 reserves. -/
def ReservedOp (op : BitVec 8) : Prop :=
  0x05 ≤ op.toNat ∧ op.toNat ≤ 0x0F ∨ 0x19 ≤ op.toNat ∧ op.toNat ≤ 0x1F ∨
    0x23 ≤ op.toNat ∧ op.toNat ≤ 0x2F ∨ 0x33 ≤ op.toNat

/-- No command has a reserved opcode (30_encoding.md R84, R86). -/
theorem not_reservedOp_opcode (i : Instr) : ¬ReservedOp i.opcode := by
  cases i <;> simp [ReservedOp, Instr.opcode]

/-- Settles O1: the decoder's checks pass on the three fields of the encoding. -/
theorem decodeOfEncodeIsTheCommand : Obligations.DecodeOfEncodeIsTheCommand :=
  fun _ => decodeCmd_encode

/-- Settles O2: the decoder's answer to the word, where it is a command. -/
theorem decodedWordIsItsEncoding : Obligations.DecodedWordIsItsEncoding :=
  fun _ _ => decodeCmd_ok

/-- Settles O3: the decoder's answer where it is a code; the encodings are the words that decode. -/
theorem decodeErrorsByWord : Obligations.DecodeErrorsByWord := by
  intro w
  refine ⟨⟨fun h => ?_, ?_⟩, ⟨fun h => ?_, fun ⟨h330, h730, henc⟩ => ?_⟩, fun code h => ?_⟩
  · by_contra hw
    exact absurd (decodeCmd_error h) (by rw [if_neg hw]; decide)
  · rintro (rfl | rfl) <;> rfl
  · have hw : ¬(w = 0x00000330 ∨ w = 0x00000730) := fun hw =>
      absurd (decodeCmd_error h) (by rw [if_pos hw]; decide)
    refine ⟨fun h330 => hw (.inl h330), fun h730 => hw (.inr h730), fun i hwf hi => ?_⟩
    rw [← hi, decodeCmd_encode hwf] at h
    cases h
  · cases hd : decodeCmd w with
    | ok i =>
      obtain ⟨hwf, hi⟩ := decodeCmd_ok hd
      exact absurd hi (henc i hwf)
    | error code => rw [decodeCmd_error hd, if_neg (not_or.2 ⟨h330, h730⟩)]
  · rw [decodeCmd_error h]
    split
    · exact .inl rfl
    · exact .inr rfl

/-- Settles O4: neither a command nor a word of mode field 3 has a reserved opcode. -/
theorem reservedOpcodesAreIllegal : Obligations.ReservedOpcodesAreIllegal := by
  intro w (hres : ReservedOp (cmdOp w))
  cases hd : decodeCmd w with
  | ok i =>
    obtain ⟨-, hi⟩ := decodeCmd_ok hd
    obtain ⟨-, hop, -⟩ := encode_eq_iff.1 hi
    exact absurd (hop ▸ hres) (not_reservedOp_opcode i)
  | error code =>
    have hop : cmdOp w ≠ 0x30 := fun hop => by
      rw [hop] at hres
      exact not_reservedOp_opcode (.modeStart .ctr false) hres
    rw [decodeCmd_error hd, if_neg fun h => hop (mode3_word_iff.1 h).2.1]

/-- Settles O5: each word of the table, evaluated. -/
theorem specExampleWordsDecode : Obligations.SpecExampleWordsDecode :=
  ⟨rfl, rfl, rfl, rfl, rfl, rfl, rfl, rfl, rfl, rfl, rfl, rfl, rfl, rfl, rfl, rfl, rfl, rfl⟩

end Sys2Proof
end

section
/-! PROOFS. The life of a command: its issue, the core's turn on it, and what its completion records (30_encoding.md R91
to R93). -/

namespace Sys2Proof.Machine

section Completion

variable {s : State}

/-- With valid round keys ADD_ROUND_KEY of a legal index succeeds (43_round_transforms.md R183). -/
theorem exec_addRoundKey_valid {idx : BitVec 4} (hidx : idx.toNat ≤ 10) (hv : s.rkValid = true) :
    exec (.addRoundKey idx) s =
      .next (doneWith { s with st := addRoundKey s.st (s.rk.get ⟨idx.toNat, by omega⟩) }) := by
  have hlt : idx.toNat < 11 := by omega
  simp [exec, execAddRoundKey, roundKeyOperand, hlt, hv, commit]

/-- A well-formed MODE_START succeeds (45_mode_controller.md R223). -/
theorem exec_modeStart_wf {m : StartMode} {rng : Bool} (hwf : (Instr.modeStart m rng).wf = true) :
    exec (.modeStart m rng) s = .next (doneWith (beginMessage m (startPrefix rng s) (afterPrefix rng s))) := by
  have hlegal : ¬(m = .cbcDec ∧ rng = true) := by rintro ⟨rfl, rfl⟩; cases hwf
  simp only [exec, execModeStart, if_neg hlegal, commit, completeWith_ok]

/-- In IDLE MODE_BLOCK fails (45_mode_controller.md R224). -/
theorem exec_modeBlock_idle (hm : s.mode = .idle) : exec .modeBlock s = .next (failedWith .sequenceErr s) := by
  simp [exec, execModeBlock, hm, raiseCmdError, completeWith_eq_failedWith]

/-- The two ends of a completion: success with code 0, or failure with a code and nothing else written (30_encoding.md
R93). -/
def CompletesWith (code : ErrCode) (s : State) (o : Host.Outcome State Fault Refusal) : Prop :=
  (code = .ok ∧ ∃ u, o = .next (doneWith u)) ∨ (code ≠ .ok ∧ o = .next (failedWith code s))

/-- A well-formed command completes with the code that its rule raises (60_exceptions.md R280). -/
theorem exec_completesWith {i : Instr} (hwf : i.wf = true) : CompletesWith (raisedCode i s) s (exec i s) := by
  cases i with
  | addRoundKey idx =>
    have hidx : idx.toNat ≤ 10 := of_decide_eq_true hwf
    cases hv : s.rkValid with
    | true => exact .inl ⟨by simp [raisedCode, hv], _, exec_addRoundKey_valid hidx hv⟩
    | false => exact .inr (by simp [raisedCode, hv, exec_addRoundKey_invalid hidx hv])
  | modeStart m rng => exact .inl ⟨rfl, _, exec_modeStart_wf hwf⟩
  | modeBlock =>
    cases hv : s.rkValid with
    | false => exact .inr (by simp [raisedCode, hv, exec_modeBlock_invalid hv])
    | true =>
      cases hm : s.mode with
      | idle => exact .inr (by simp [raisedCode, hm, exec_modeBlock_idle hm])
      | cbcEnc => exact .inl ⟨by simp [raisedCode, hm, hv], _, exec_modeBlock_cbcEnc hm hv⟩
      | cbcDec => exact .inl ⟨by simp [raisedCode, hm, hv], _, exec_modeBlock_cbcDec hm hv⟩
      | ctr => exact .inl ⟨by simp [raisedCode, hm, hv], _, exec_modeBlock_ctr hm hv⟩
  | _ => exact .inl ⟨rfl, _, rfl⟩

/-- The code a completion records does not depend on the events still to come. -/
@[simp] theorem completionCode_setInputs (w : Word) (es : List Event) :
    completionCode w (setInputs es s) = completionCode w s := rfl

/-- The core's step on any pending word completes it with its code (30_encoding.md R92, R93). -/
theorem coreStep_completesWith {w : Word} (hb : building s = false) (hp : s.pending = some w) :
    CompletesWith (completionCode w s) s (coreStep s) := by
  cases hd : decodeCmd w with
  | ok i =>
    obtain ⟨hwf, -⟩ := decodeCmd_ok hd
    simpa only [coreStep_run hb hp hd, completionCode, hd] using exec_completesWith hwf
  | error code =>
    have hcode : code ≠ .ok := by rw [decodeCmd_error hd]; split <;> decide
    simpa only [coreStep_reject hb hp hd, completionCode, hd] using .inr ⟨hcode, rfl⟩

end Completion

/-- The build has ended, also with the turn used up. -/
theorem building_afterTurn {s : State} (hready : s.sboxReady = true) :
    building (setInputs s.inputs.tail s) = false := by
  simp [building, hready]

/-- Settles O6: the core's turn runs the decoded command, or idles. -/
theorem stepRunsTheDecodedCommand : Obligations.StepRunsTheDecodedCommand := by
  refine ⟨fun s w i hready hp hd hc => ?_, fun s hready hp hc => ?_⟩
  · rw [step_core hc, coreStep_run (building_afterTurn hready) hp hd]
  · rw [step_core hc, coreStep_idle (building_afterTurn hready) hp]

/-- Settles O7: the core's turn rejects the word. -/
theorem illegalWordCompletesWithItsCode : Obligations.IllegalWordCompletesWithItsCode := by
  intro s w code hready hp hd hc
  rw [step_core hc, coreStep_reject (building_afterTurn hready) hp hd]

/-- Settles O8: the core's turn completes the word, in one of its two ends. -/
theorem completionBookkeepingIsPrecise : Obligations.CompletionBookkeepingIsPrecise := by
  intro s w hready hp hc
  rw [step_core hc, ← completionCode_setInputs w s.inputs.tail]
  obtain ⟨hok, u, hu⟩ | ⟨-, hfail⟩ := coreStep_completesWith (building_afterTurn hready) hp
  · exact ⟨_, hu, rfl, rfl, hok.symm, fun hne => absurd hok hne⟩
  · exact ⟨_, hfail, rfl, rfl, rfl, fun _ => rfl⟩

/-! ## Issue -/

/-- A host access while the core is busy leaves PENDING as it is: a read changes nothing, a write is refused or ignored
(20_memory.md R52, R67). -/
theorem windowAccess_pending {s : State} (hb : busy s = true) (off size : Nat) (op : BusOp) :
    (windowAccess off size op s).pending = s.pending := by
  cases op with
  | read => rfl
  | write w =>
    obtain ⟨-, h⟩ | ⟨-, -, h⟩ | ⟨-, hb', -⟩ := busWrite_cases off size w s
    · simp [windowAccess, h]
    · simp [windowAccess, h]
    · exact absurd (hb.symm.trans hb') (by decide)

/-- A pending command keeps the core busy (20_memory.md R67). -/
theorem busy_of_pending {s : State} {w : Word} (hp : s.pending = some w) : busy s = true := by
  simp [busy, hp]

/-- Settles O10: CMD's own effect is issue; the ignored write is O11's; and PENDING outlasts every access. -/
theorem cmdWriteIssues : Obligations.CmdWriteIssues := by
  have ho : WordOffset 0x000 := ⟨by omega, rfl⟩
  refine ⟨fun s w rest hb hi => ⟨_, step_memWrite_idle ho hb hi, rfl, rfl⟩,
    fun s w rest hb hi => busyWriteIsIgnoredAndSetsOvr.2 s _ w rest ho hb hi, fun s t w a rest hp hi h => ?_⟩
  rw [step_host hi] at h
  obtain ⟨off, -, rfl⟩ := hostAccess_next h
  have hkeep := windowAccess_pending (s := setInputs rest s) (busy_of_pending hp) off a.size a.op
  have hpend := hkeep.trans hp
  exact ⟨hpend, (statusWord_busy _).trans (busy_of_pending hpend)⟩

end Sys2Proof.Machine
end

section
/-! PROOFS. GF(2^8) as the model computes it: gmul is bilinear over XOR, so its laws are checked on the eight bits of each
operand; the inverse as the search finds it; the two ROMs as affine images of the inverse; the four field commands
(40_field_arithmetic.md R112 to R123). -/

namespace Sys2Proof.Machine

/-! ## xtime -/

/-- Cutting to 8 bits undoes the widening of a doubled Byte. -/
theorem setWidth_widened_shift (a : Byte) : (a.setWidth 9 <<< 1).setWidth 8 = a <<< 1 := by
  rw [BitVec.setWidth_shiftLeft_of_le (by omega), BitVec.setWidth_setWidth_of_le _ (by omega), BitVec.setWidth_eq]

/-- Settles O28: bit 8 of the widened double is bit 7 of the Byte, and 0x11B cut to 8 bits is 0x1B. -/
theorem xtimeReducesByThePolynomial : Obligations.XtimeReducesByThePolynomial := by
  intro a
  have hbit : (a.setWidth 9 <<< 1).getLsbD 8 = a.getLsbD 7 := by simp
  refine ⟨?_, rfl⟩
  simp only [hbit, xtime]
  split
  · rw [BitVec.setWidth_xor, setWidth_widened_shift]; rfl
  · rw [setWidth_widened_shift]; exact BitVec.xor_zero

/-! ## gmul is bilinear over XOR -/

@[simp] theorem gmul_zero_right (a : Byte) : gmul a 0#8 = 0#8 := by simp [gmul_eq_sum, gated]

@[simp] theorem gmul_one_right (a : Byte) : gmul a 1#8 = a := by simp [gmul_eq_sum, gated]

theorem gmul_xor_right (a b c : Byte) : gmul a (b ^^^ c) = gmul a b ^^^ gmul a c := by
  simp only [gmul_eq_sum, BitVec.getLsbD_xor, gated_bxor]
  ac_rfl

theorem gmul_xor_left (a b c : Byte) : gmul (a ^^^ b) c = gmul a c ^^^ gmul b c := by
  simp only [gmul_eq_sum, xtime_xor, gated_xor]
  ac_rfl

@[simp] theorem gmul_zero_left (b : Byte) : gmul 0#8 b = 0#8 := by
  simpa using gmul_xor_left 0 0 b

/-- Both sides are additive in each operand, so the 64 pairs of bits decide. -/
theorem gmul_comm (a b : Byte) : gmul a b = gmul b a := by
  induction a using byte_induction with
  | h0 => simp
  | hx x y hx hy => rw [gmul_xor_left, gmul_xor_right, hx, hy]
  | hb i =>
    induction b using byte_induction with
    | h0 => simp
    | hx x y hx hy => rw [gmul_xor_left, gmul_xor_right, hx, hy]
    | hb j => revert i j; decide +kernel

@[simp] theorem gmul_one_left (b : Byte) : gmul 1#8 b = b := by rw [gmul_comm, gmul_one_right]

/-- Both sides are additive in each operand, so the 512 triples of bits decide. -/
theorem gmul_assoc (a b c : Byte) : gmul (gmul a b) c = gmul a (gmul b c) := by
  induction a using byte_induction with
  | h0 => simp
  | hx x y hx hy => simp only [gmul_xor_left, hx, hy]
  | hb i =>
    induction b using byte_induction with
    | h0 => simp
    | hx x y hx hy => simp only [gmul_xor_left, gmul_xor_right, hx, hy]
    | hb j =>
      induction c using byte_induction with
      | h0 => simp
      | hx x y hx hy => simp only [gmul_xor_right, hx, hy]
      | hb k => revert i j k; decide +kernel

/-! ## The affine maps of the table builder -/

/-- The affine map of R116, applied to the inverse. -/
def sboxAffine (b : Byte) : Byte := b ^^^ rotl8 b 1 ^^^ rotl8 b 2 ^^^ rotl8 b 3 ^^^ rotl8 b 4 ^^^ 0x63

/-- The affine map of R117, whose value is inverted. -/
def invSboxAffine (a : Byte) : Byte := rotl8 a 1 ^^^ rotl8 a 3 ^^^ rotl8 a 6 ^^^ 0x05

theorem sboxEntry_eq (a : Byte) : sboxEntry a = sboxAffine (ginv a) := rfl

theorem invSboxEntry_eq (a : Byte) : invSboxEntry a = ginv (invSboxAffine a) := rfl

theorem sboxAffine_invSboxAffine (a : Byte) : sboxAffine (invSboxAffine a) = a := by
  revert a; decide +kernel

/-- Settles O32, entry by entry. -/
theorem tablesAreMutuallyInverse : Obligations.TablesAreMutuallyInverse := by
  unfold Obligations.TablesAreMutuallyInverse
  decide +kernel

/-! ## The inverse -/

/-- The affine map of R117 takes SBOX[a] to an inverse of a, read off the ROM. -/
theorem gmul_invSboxAffine_sbox {a : Byte} (ha : a ≠ 0) : gmul a (invSboxAffine (sbox a)) = 1 := by
  revert a; decide +kernel

theorem gmul_left_cancel {a b c : Byte} (ha : a ≠ 0) (h : gmul a b = gmul a c) : b = c := by
  have hinv : gmul (invSboxAffine (sbox a)) a = 1#8 := (gmul_comm ..).trans (gmul_invSboxAffine_sbox ha)
  rw [← gmul_one_left b, ← gmul_one_left c, ← hinv, gmul_assoc, gmul_assoc, h]

/-- Squaring in the field. -/
def gsq (a : Byte) : Byte := gmul a a

theorem gsq_xor (a b : Byte) : gsq (a ^^^ b) = gsq a ^^^ gsq b := by
  have hcross : gmul a b ^^^ gmul b a = 0#8 := by rw [gmul_comm b a, BitVec.xor_self]
  calc gsq (a ^^^ b) = gsq a ^^^ gsq b ^^^ (gmul a b ^^^ gmul b a) := by
        simp only [gsq, gmul_xor_left, gmul_xor_right]; ac_rfl
    _ = gsq a ^^^ gsq b := by rw [hcross, BitVec.xor_zero]

theorem gsq_iterate_xor (n : Nat) (a b : Byte) : gsq^[n] (a ^^^ b) = gsq^[n] a ^^^ gsq^[n] b := by
  induction n with
  | zero => rfl
  | succ n ih => simp only [Function.iterate_succ_apply', ih, gsq_xor]

/-- Eight squarings are additive, and on the eight bits they change nothing. -/
theorem gsq_iterate_eight (a : Byte) : gsq^[8] a = a := by
  induction a using byte_induction with
  | h0 => decide +kernel
  | hx x y hx hy => rw [gsq_iterate_xor, hx, hy]
  | hb i => revert i; decide +kernel

theorem gpow_add (a : Byte) (m n : Nat) : gpow a (m + n) = gmul (gpow a m) (gpow a n) := by
  induction n with
  | zero => simp [gpow]
  | succ n ih => rw [Nat.add_succ, gpow, ih, gmul_assoc, gpow]

theorem gpow_two_pow (a : Byte) (n : Nat) : gpow a (2 ^ n) = gsq^[n] a := by
  induction n with
  | zero => simp [gpow]
  | succ n ih => rw [Nat.pow_succ, Nat.mul_two, gpow_add, ih, Function.iterate_succ_apply', gsq]

/-- Every nonzero Byte is a 255th root of 1, so the search of ginv ends (40_field_arithmetic.md R114, R126). -/
theorem gpow_255 {a : Byte} (ha : a ≠ 0) : gpow a 255 = 1 := by
  have h256 : gmul a (gpow a 255) = a := by
    rw [gmul_comm]
    exact (gpow_two_pow a 8).trans (gsq_iterate_eight a)
  exact gmul_left_cancel ha (h256.trans (gmul_one_right a).symm)

@[simp] theorem ginv_zero : ginv 0 = 0 := rfl

theorem gmul_ginv {a : Byte} (ha : a ≠ 0) : gmul a (ginv a) = 1 := by
  have hsearch := ginvLoop_spec a 255 1 ⟨254, by omega, by omega, gpow_255 ha⟩
  have hfirst : gpow a 1 = a := gmul_one_left a
  rw [hfirst, gmul_comm] at hsearch
  rwa [ginv, if_neg ha]

theorem gmul_eq_one_iff {a : Byte} (ha : a ≠ 0) (b : Byte) : gmul a b = 1 ↔ b = ginv a where
  mp h := gmul_left_cancel ha (h.trans (gmul_ginv ha).symm)
  mpr h := h ▸ gmul_ginv ha

theorem ginv_ne_zero {a : Byte} (ha : a ≠ 0) : ginv a ≠ 0 := by
  intro h
  simpa [h] using gmul_ginv ha

@[simp] theorem ginv_ginv (a : Byte) : ginv (ginv a) = a := by
  by_cases ha : a = 0
  · rw [ha, ginv_zero, ginv_zero]
  · exact ((gmul_eq_one_iff (ginv_ne_zero ha) a).mp (by rw [gmul_comm, gmul_ginv ha])).symm

/-- Settles O30: the search finds an inverse, and a nonzero factor cancels. -/
theorem ginvIsTheUniqueInverse : Obligations.GinvIsTheUniqueInverse :=
  ⟨ginv_zero, fun _ b ha => gmul_eq_one_iff ha b⟩

/-- Settles O29: the laws of gmul by bilinearity, those of ginv by the search and by cancelling. -/
theorem fieldLaws : Obligations.FieldLaws :=
  ⟨gmul_comm, gmul_assoc, gmul_xor_right, fun a => ⟨gmul_one_right a, gmul_zero_right a⟩, fun _ => gmul_ginv, ginv_ginv⟩

/-! ## The ROMs -/

/-- The ROM holds the affine image of the inverse, read backwards. -/
theorem invSboxAffine_sbox (a : Byte) : invSboxAffine (sbox a) = ginv a := by
  by_cases ha : a = 0
  · rw [ha]; decide
  · exact (gmul_eq_one_iff ha _).mp (gmul_invSboxAffine_sbox ha)

theorem sbox_eq_sboxEntry (a : Byte) : sbox a = sboxEntry a := by
  rw [sboxEntry_eq, ← invSboxAffine_sbox, sboxAffine_invSboxAffine]

theorem invSbox_eq_invSboxEntry (a : Byte) : invSbox a = invSboxEntry a := by
  have hinv : invSboxAffine a = ginv (invSbox a) := by
    rw [← invSboxAffine_sbox, (tablesAreMutuallyInverse a).2]
  rw [invSboxEntry_eq, hinv, ginv_ginv]

/-- Settles O31: SBOX by inverting its affine map, INV_SBOX as the inverse table. -/
theorem romsHoldTheBuiltTables : Obligations.RomsHoldTheBuiltTables := ⟨sbox_eq_sboxEntry, invSbox_eq_invSboxEntry⟩

/-! ## The field commands -/

/-- The three lower bytes of GF are GA, GB and GR (10_state.md R41). -/
theorem wordByte_windowRead_gf (s : State) :
    wordByte (windowRead 0x008 s) 0 = s.ga ∧ wordByte (windowRead 0x008 s) 1 = s.gb ∧
    wordByte (windowRead 0x008 s) 2 = s.gr := by
  rw [windowRead, regionOf_gf]
  exact ⟨wordByte_packWord_0 .., wordByte_packWord_1 .., wordByte_packWord_2 ..⟩

/-- GF after a command that wrote v to GR: v in byte 2, GA and GB as before (40_field_arithmetic.md R120 to R123). -/
theorem wordByte_windowRead_gf_done (s : State) (v : Byte) :
    wordByte (windowRead 0x008 (doneWith { s with gr := v })) 0 = s.ga ∧
    wordByte (windowRead 0x008 (doneWith { s with gr := v })) 1 = s.gb ∧
    wordByte (windowRead 0x008 (doneWith { s with gr := v })) 2 = v :=
  wordByte_windowRead_gf _

theorem exec_gfMul (s : State) : exec .gfMul s = .next (doneWith { s with gr := gmul s.ga s.gb }) := rfl
theorem exec_gfInv (s : State) : exec .gfInv s = .next (doneWith { s with gr := ginv s.ga }) := rfl
theorem exec_sboxFwd (s : State) : exec .sboxFwd s = .next (doneWith { s with gr := sbox s.ga }) := rfl
theorem exec_sboxInv (s : State) : exec .sboxInv s = .next (doneWith { s with gr := invSbox s.ga }) := rfl

/-- Settles O33: the next state of each command, the bytes of GF in it, and the two tables undoing each other. -/
theorem fieldCommandsWriteGr : Obligations.FieldCommandsWriteGr := by
  intro s
  refine ⟨⟨_, exec_gfMul s, rfl, ?_⟩, ⟨_, exec_gfInv s, rfl, ?_⟩, ⟨_, exec_sboxFwd s, rfl, ?_⟩,
    ⟨_, exec_sboxInv s, rfl, ?_⟩⟩
  · obtain ⟨hga, hgb, hgr⟩ := wordByte_windowRead_gf_done s (gmul s.ga s.gb)
    exact ⟨hgr, hga, hgb⟩
  · obtain ⟨-, hgb, hgr⟩ := wordByte_windowRead_gf_done s (ginv s.ga)
    exact ⟨hgr, hgb⟩
  · obtain ⟨-, -, hgr⟩ := wordByte_windowRead_gf_done s (sbox s.ga)
    exact ⟨hgr, (tablesAreMutuallyInverse s.ga).1⟩
  · obtain ⟨-, -, hgr⟩ := wordByte_windowRead_gf_done s (invSbox s.ga)
    exact ⟨hgr, (tablesAreMutuallyInverse s.ga).2⟩

end Sys2Proof.Machine
end

section
/-! PROOFS. The state codec: its two directions element by element, its round trip, and the two commands that run it
(41_state_codec.md R140 to R146). -/

namespace Sys2Proof.Machine

@[simp] theorem cell_decodeBlock (b : Block) (r c : Fin 4) :
    cell (decodeBlock b) r c = b.get ⟨4 * c.val + r.val, by omega⟩ := by
  simp [decodeBlock]

@[simp] theorem get_encodeState (s : AesState) (i : Fin 16) :
    (encodeState s).get i = cell s ⟨i.val % 4, by omega⟩ ⟨i.val / 4, by omega⟩ := by
  simp [encodeState]

/-- Byte 4c + r of the encoded State is cell (r, c), since r < 4 (41_state_codec.md R142). -/
@[simp] theorem decodeBlock_encodeState (s : AesState) : decodeBlock (encodeState s) = s := by
  apply state_ext
  intro r c
  have hrow : (4 * c.val + r.val) % 4 = r.val := by omega
  have hcol : (4 * c.val + r.val) / 4 = c.val := by omega
  simp [hrow, hcol]

/-- Settles O34: byte i is i mod 4 + 4 (i div 4), and each cell is read back at its own row and column. -/
theorem codecRoundTrip : Obligations.CodecRoundTrip := ⟨encodeState_decodeBlock, decodeBlock_encodeState⟩

theorem exec_loadState (s : State) : exec .loadState s = .next (doneWith { s with st := decodeBlock s.din }) := rfl
theorem exec_storeState (s : State) : exec .storeState s = .next (doneWith { s with dout := encodeState s.st }) := rfl

/-- STORE_STATE after LOAD_STATE: DOUT = DIN, and ST as LOAD_STATE left it (41_state_codec.md R145, R146). -/
theorem exec_storeState_after_loadState (s : State) :
    exec .storeState (doneWith { s with st := decodeBlock s.din }) =
      .next (doneWith { s with st := decodeBlock s.din, dout := s.din }) := by
  rw [exec_storeState, doneWith_st, encodeState_decodeBlock]
  rfl

/-- Settles O35: each command writes the codec's value, and the round trip makes DOUT = DIN. -/
theorem loadAndStoreState : Obligations.LoadAndStoreState := by
  intro s
  exact ⟨⟨_, exec_loadState s, cell_decodeBlock s.din, exec_storeState_after_loadState s⟩,
    ⟨_, exec_storeState s, get_encodeState s.st⟩⟩

end Sys2Proof.Machine
end

section
/-! PROOFS. The key schedule: the round constants, the round key's columns each from the one before, and KEY_EXPAND
(42_key_schedule.md R150 to R155). -/

namespace Sys2Proof.Machine

/-- The round constants of the ten rounds (42_key_schedule.md R150). -/
theorem roundConst_eq_table (i : Fin 10) :
    roundConst (i.val + 1) = [0x01, 0x02, 0x04, 0x08, 0x10, 0x20, 0x40, 0x80, 0x1B, 0x36].getD i.val 0 := by
  revert i
  decide

/-- The rotation upwards is addition of rows modulo 4, as Fin 4 adds them (42_key_schedule.md R151, R152). -/
theorem scheduleCore_eq (i : Nat) (p : AesState) (r : Fin 4) :
    scheduleCore i p r = sbox (cell p (r + 1) 3) ^^^ (if r = 0 then roundConst i else 0) := by
  simp only [Fin.ext_iff (a := r)]
  rfl

section RoundKey

variable (i : Nat) (p : AesState) (r : Fin 4)

/-- Step 3 of a round (42_key_schedule.md R153). -/
theorem cell_nextRoundKey_zero : cell (nextRoundKey i p) r 0 = scheduleCore i p r ^^^ cell p r 0 := by
  simp [nextRoundKey, nextKeyColumn]

/-- Step 4 of a round (42_key_schedule.md R153). -/
theorem cell_nextRoundKey_succ (j : Fin 3) :
    cell (nextRoundKey i p) r j.succ = cell p r j.succ ^^^ cell (nextRoundKey i p) r j.castSucc := by
  have hcol : (⟨(j.val + 1) % 4, by omega⟩ : Fin 4) = j.succ := Fin.ext (Nat.mod_eq_of_lt (by omega))
  simp [nextRoundKey, nextKeyColumn, hcol]

end RoundKey

theorem keySchedule_get_zero (k : AesState) : (keySchedule k).get 0 = k := get_keySchedule k 0

theorem keySchedule_get_succ (k : AesState) (i : Fin 10) :
    (keySchedule k).get i.succ = nextRoundKey (i.val + 1) ((keySchedule k).get i.castSucc) := by
  rw [get_keySchedule, get_keySchedule]
  rfl

/-- Settles O39: each later entry is the next round key of the entry before it, and a column other than 0 is a successor. -/
theorem keyScheduleRecurrence : Obligations.KeyScheduleRecurrence := by
  refine ⟨keySchedule_get_zero, fun k i r => ?_⟩
  rw [keySchedule_get_succ, ← roundConst_eq_table, ← scheduleCore_eq]
  refine ⟨cell_nextRoundKey_zero .., fun j hj => ?_⟩
  obtain ⟨j, rfl⟩ := Fin.exists_succ_eq.mpr hj
  have hprev : j.succ - 1 = j.castSucc := by rw [← Fin.coeSucc_eq_succ, add_sub_cancel_right]
  rw [hprev, cell_nextRoundKey_succ]

theorem exec_keyExpand (s : State) : exec .keyExpand s = .next (doneWith (expandKey s)) := rfl

/-- KEY_EXPAND leaves KEY, and RK is a function of KEY (42_key_schedule.md R155). -/
theorem exec_keyExpand_again (s : State) :
    exec .keyExpand (doneWith (expandKey s)) = .next (doneWith (expandKey s)) := rfl

/-- Settles O40: the next state is expandKey's, which a second one finds unchanged, and its RK[0] is decode(KEY). -/
theorem keyExpandCommand : Obligations.KeyExpandCommand := by
  intro s
  refine ⟨_, exec_keyExpand s, rfl, exec_keyExpand_again s, ?_⟩
  rw [doneWith_rk, expandKey_rk, keySchedule_get_zero, encodeState_decodeBlock]

end Sys2Proof.Machine
end

section
/-! PROOFS. The round transforms: their cells, each undone by its inverse, and the commands that run them on ST
(43_round_transforms.md R170 to R184), with the one code a well-formed command raises (60_exceptions.md R280). -/

namespace Sys2Proof.Machine

/-! ## The transforms by cell -/

section Cells

variable (s : AesState) (r c : Fin 4)

@[simp] theorem cell_subBytes : cell (subBytes s) r c = sbox (cell s r c) := by
  simp [subBytes]

@[simp] theorem cell_invSubBytes : cell (invSubBytes s) r c = invSbox (cell s r c) := by
  simp [invSubBytes]

/-- The column index is the sum of Fin 4 (43_round_transforms.md R172). -/
@[simp] theorem cell_shiftRows : cell (shiftRows s) r c = cell s r (c + r) := by
  rw [shiftRows, cell_mkState]
  rfl

/-- The column index is the difference of Fin 4 (43_round_transforms.md R173). -/
@[simp] theorem cell_invShiftRows : cell (invShiftRows s) r c = cell s r (c - r) := by
  have hcol : (⟨(c.val + 4 - r.val) % 4, by omega⟩ : Fin 4) = c - r := by
    apply Fin.ext
    rw [Fin.sub_def]
    change (c.val + 4 - r.val) % 4 = (4 - r.val + c.val) % 4
    omega
  rw [invShiftRows, cell_mkState, hcol]

@[simp] theorem cell_addRoundKey (k : AesState) : cell (addRoundKey s k) r c = cell s r c ^^^ cell k r c := by
  simp [addRoundKey]

/-- The entry j places right of the diagonal is m[j] in every row (43_round_transforms.md R174). -/
@[simp] theorem circulant_add (m : Vector Byte 4) (j : Fin 4) : circulant m r (r + j) = m.get j := by
  have hcol : (⟨((r + j).val + 4 - r.val) % 4, by omega⟩ : Fin 4) = j := by
    apply Fin.ext
    change ((r.val + j.val) % 4 + 4 - r.val) % 4 = j.val
    omega
  rw [circulant, hcol]

end Cells

/-- A XOR over the four rows may start at any row. -/
theorem xor_rows_rotate (f : Fin 4 → Byte) (r : Fin 4) :
    f 0 ^^^ f 1 ^^^ f 2 ^^^ f 3 = f r ^^^ f (r + 1) ^^^ f (r + 2) ^^^ f (r + 3) := by
  match r with
  | 0 => rfl
  | 1 => change _ = f 1 ^^^ f 2 ^^^ f 3 ^^^ f 0; ac_rfl
  | 2 => change _ = f 2 ^^^ f 3 ^^^ f 0 ^^^ f 1; ac_rfl
  | 3 => change _ = f 3 ^^^ f 0 ^^^ f 1 ^^^ f 2; ac_rfl

/-- A circulant product by cell: every row has the same coefficients, counted from its own diagonal
(43_round_transforms.md R174). -/
theorem cell_mixWith (m : Vector Byte 4) (s : AesState) (r c : Fin 4) :
    cell (mixWith m s) r c = gmul (m.get 0) (cell s r c) ^^^ gmul (m.get 1) (cell s (r + 1) c) ^^^
      gmul (m.get 2) (cell s (r + 2) c) ^^^ gmul (m.get 3) (cell s (r + 3) c) := by
  have hdiag : circulant m r r = m.get 0 := by simpa using circulant_add r m 0
  rw [mixWith, cell_mkState, xor_rows_rotate (fun k => gmul (circulant m r k) (cell s k c)) r]
  simp only [hdiag, circulant_add]

/-! ## Circulant products compose -/

/-- The first row of the product of two circulants. -/
def circulantProduct (m n : Vector Byte 4) : Vector Byte 4 :=
  Vector.ofFn fun j => gmul (m.get 0) (n.get j) ^^^ gmul (m.get 1) (n.get (j - 1)) ^^^
    gmul (m.get 2) (n.get (j - 2)) ^^^ gmul (m.get 3) (n.get (j - 3))

theorem get_circulantProduct (m n : Vector Byte 4) (j : Fin 4) :
    (circulantProduct m n).get j = gmul (m.get 0) (n.get j) ^^^ gmul (m.get 1) (n.get (j - 1)) ^^^
      gmul (m.get 2) (n.get (j - 2)) ^^^ gmul (m.get 3) (n.get (j - 3)) := by
  simp [circulantProduct, Vector.get_eq_getElem]

/-- The column product is linear over GF(2^8), so two of them are the one of the product matrix. -/
theorem mixWith_mixWith (m n : Vector Byte 4) (s : AesState) :
    mixWith m (mixWith n s) = mixWith (circulantProduct m n) s := by
  apply state_ext
  intro r c
  simp only [cell_mixWith, get_circulantProduct, gmul_xor_right, gmul_xor_left, gmul_assoc, add_assoc, Fin.reduceAdd,
    Fin.reduceSub, add_zero]
  ac_rfl

/-- The identity matrix changes no State. -/
theorem mixWith_identity (s : AesState) : mixWith #v[1, 0, 0, 0] s = s := by
  apply state_ext
  intro r c
  simp [cell_mixWith, Vector.get_eq_getElem]

/-- The two coefficient rows are inverse to each other (43_round_transforms.md R175, R184). -/
theorem circulantProduct_mixCoeffs :
    circulantProduct invMixCoeffs mixCoeffs = #v[1, 0, 0, 0] ∧
    circulantProduct mixCoeffs invMixCoeffs = #v[1, 0, 0, 0] := by
  decide

/-! ## Each transform is undone by its inverse -/

section Inverses

variable (s : AesState)

@[simp] theorem invSubBytes_subBytes : invSubBytes (subBytes s) = s :=
  state_ext fun r c => by rw [cell_invSubBytes, cell_subBytes, (tablesAreMutuallyInverse _).1]

@[simp] theorem subBytes_invSubBytes : subBytes (invSubBytes s) = s :=
  state_ext fun r c => by rw [cell_subBytes, cell_invSubBytes, (tablesAreMutuallyInverse _).2]

@[simp] theorem invShiftRows_shiftRows : invShiftRows (shiftRows s) = s :=
  state_ext fun r c => by rw [cell_invShiftRows, cell_shiftRows, sub_add_cancel]

@[simp] theorem shiftRows_invShiftRows : shiftRows (invShiftRows s) = s :=
  state_ext fun r c => by rw [cell_shiftRows, cell_invShiftRows, add_sub_cancel_right]

@[simp] theorem invMixColumns_mixColumns : invMixColumns (mixColumns s) = s := by
  rw [invMixColumns, mixColumns, mixWith_mixWith, circulantProduct_mixCoeffs.1, mixWith_identity]

@[simp] theorem mixColumns_invMixColumns : mixColumns (invMixColumns s) = s := by
  rw [mixColumns, invMixColumns, mixWith_mixWith, circulantProduct_mixCoeffs.2, mixWith_identity]

@[simp] theorem addRoundKey_addRoundKey (k : AesState) : addRoundKey (addRoundKey s k) k = s :=
  state_ext fun r c => by
    rw [cell_addRoundKey, cell_addRoundKey, BitVec.xor_assoc, BitVec.xor_self, BitVec.xor_zero]

end Inverses

/-- Settles O37: cell by cell from the tables, the shifts and XOR, and for the columns by the product of the matrices. -/
theorem transformsAndInverses : Obligations.TransformsAndInverses := fun s k =>
  ⟨invSubBytes_subBytes s, subBytes_invSubBytes s, invShiftRows_shiftRows s, shiftRows_invShiftRows s,
    invMixColumns_mixColumns s, mixColumns_invMixColumns s, addRoundKey_addRoundKey s k⟩

/-! ## The transform commands -/

section TransformCommands

variable (s : State)

theorem exec_subBytes : exec .subBytes s = .next (doneWith { s with st := subBytes s.st }) := rfl
theorem exec_invSubBytes : exec .invSubBytes s = .next (doneWith { s with st := invSubBytes s.st }) := rfl
theorem exec_shiftRows : exec .shiftRows s = .next (doneWith { s with st := shiftRows s.st }) := rfl
theorem exec_invShiftRows : exec .invShiftRows s = .next (doneWith { s with st := invShiftRows s.st }) := rfl
theorem exec_mixColumns : exec .mixColumns s = .next (doneWith { s with st := mixColumns s.st }) := rfl
theorem exec_invMixColumns : exec .invMixColumns s = .next (doneWith { s with st := invMixColumns s.st }) := rfl

end TransformCommands

/-- The two coefficients 0x01 of MixColumns drop out (43_round_transforms.md R174). -/
theorem cell_mixColumns (s : AesState) (r c : Fin 4) :
    cell (mixColumns s) r c = gmul 0x02 (cell s r c) ^^^ gmul 0x03 (cell s (r + 1) c) ^^^
      cell s (r + 2) c ^^^ cell s (r + 3) c := by
  have h2 : gmul (mixCoeffs.get 2) (cell s (r + 2) c) = cell s (r + 2) c := gmul_one_left _
  have h3 : gmul (mixCoeffs.get 3) (cell s (r + 3) c) = cell s (r + 3) c := gmul_one_left _
  rw [mixColumns, cell_mixWith, h2, h3]
  rfl

/-- Settles O36: the next state of each command, and its ST by cell. -/
theorem transformCommandsByCell : Obligations.TransformCommandsByCell := fun s =>
  ⟨⟨_, exec_subBytes s, cell_subBytes s.st⟩, ⟨_, exec_invSubBytes s, cell_invSubBytes s.st⟩,
    ⟨_, exec_shiftRows s, cell_shiftRows s.st⟩, ⟨_, exec_invShiftRows s, cell_invShiftRows s.st⟩,
    ⟨_, exec_mixColumns s, cell_mixColumns s.st⟩, ⟨_, exec_invMixColumns s, cell_mixWith invMixCoeffs s.st⟩⟩

/-! ## ADD_ROUND_KEY -/

/-- An index above 10 names no round key (log entry 11). -/
theorem exec_addRoundKey_illegal {s : State} {idx : BitVec 4} (hidx : 11 ≤ idx.toNat) :
    exec (.addRoundKey idx) s = .next (failedWith .illegalCmd s) := by
  simp [exec, execAddRoundKey, roundKeyOperand, Nat.not_lt.mpr hidx, raiseCmdError, completeWith_eq_failedWith]

/-- Settles O38: one case for each of a legal index with and without round keys, and an index above 10. -/
theorem addRoundKeyCommand : Obligations.AddRoundKeyCommand :=
  ⟨fun s _ hidx hv => ⟨_, exec_addRoundKey_valid (Nat.le_of_lt_succ hidx) hv, fun r c => cell_addRoundKey s.st r c _⟩,
    fun _ _ hidx hv => exec_addRoundKey_invalid (Nat.le_of_lt_succ hidx) hv,
    fun _ _ hidx => exec_addRoundKey_illegal hidx⟩

/-! ## The code a command raises -/

/-- The code that a well-formed command leaves in ERRCODE is the one its rule raises (60_exceptions.md R280). -/
theorem exec_errcode {i : Instr} {s t : State} (hwf : i.wf = true) (h : exec i s = .next t) :
    t.errcode = raisedCode i s := by
  obtain ⟨hok, u, hu⟩ | ⟨-, hfail⟩ := exec_completesWith (s := s) hwf
  · cases hu.symm.trans h
    exact hok.symm
  · cases hfail.symm.trans h
    rfl

/-- No command raises another code than SEQUENCE_ERR (60_exceptions.md R280). -/
theorem raisedCode_ok_or_sequenceErr (i : Instr) (s : State) : raisedCode i s = .ok ∨ raisedCode i s = .sequenceErr := by
  cases i with
  | addRoundKey idx => cases hv : s.rkValid <;> simp [raisedCode, hv]
  | modeBlock => exact (ite_eq_or_eq ..).symm
  | _ => exact .inl rfl

/-- Which commands raise SEQUENCE_ERR, and in which states (43_round_transforms.md R183; 45_mode_controller.md R224). -/
theorem raisedCode_eq_sequenceErr_iff (i : Instr) (s : State) :
    raisedCode i s = .sequenceErr ↔
      ((∃ idx, i = .addRoundKey idx) ∧ s.rkValid = false) ∨
        (i = .modeBlock ∧ (s.mode = .idle ∨ s.rkValid = false)) := by
  cases i with
  | modeBlock => by_cases hfail : s.mode = .idle ∨ s.rkValid = false <;> simp [raisedCode, hfail]
  | _ => simp [raisedCode]

/-- Settles O9: ERRCODE is the raised code, and raisedCode is SEQUENCE_ERR exactly there. -/
theorem sequenceErrorExactlyWhen : Obligations.SequenceErrorExactlyWhen := by
  intro i s t hwf h
  rw [exec_errcode hwf h]
  exact ⟨raisedCode_ok_or_sequenceErr i s, raisedCode_eq_sequenceErr_iff i s⟩

end Sys2Proof.Machine
end

section
/-! PROOFS. The block cipher: each direction undone by the other, the two commands that run it, and the primitive commands
in sequence (44_block_cipher.md R200 to R207). -/

namespace Sys2Proof.Machine

/-- Settles O42: the closed term, evaluated. -/
theorem knownAnswerTest : Obligations.KnownAnswerTest := by
  unfold Obligations.KnownAnswerTest
  decide +kernel

/-! ## The two directions undo each other -/

section RoundTrip

variable (rks : RoundKeys) (s : AesState) (n : Fin 11)

theorem decRound_encRound : decRound rks (encRound rks s n) n = s := by
  simp [decRound, encRound]

theorem encRound_decRound : encRound rks (decRound rks s n) n = s := by
  simp [decRound, encRound]

/-- Steps undone one by one, in reverse order (44_block_cipher.md R202). -/
theorem foldl_reverse_foldl {f g : AesState → Fin 11 → AesState} (h : ∀ s n, g (f s n) n = s) (ns : List (Fin 11)) :
    ns.reverse.foldl g (ns.foldl f s) = s := by
  induction ns generalizing s with
  | nil => rfl
  | cons n ns ih => simp only [List.reverse_cons, List.foldl_append, List.foldl_cons, List.foldl_nil, ih, h]

theorem decRounds_encRounds :
    [9, 8, 7, 6, 5, 4, 3, 2, 1].foldl (decRound rks) ([1, 2, 3, 4, 5, 6, 7, 8, 9].foldl (encRound rks) s) = s :=
  foldl_reverse_foldl s (decRound_encRound rks) [1, 2, 3, 4, 5, 6, 7, 8, 9]

theorem encRounds_decRounds :
    [1, 2, 3, 4, 5, 6, 7, 8, 9].foldl (encRound rks) ([9, 8, 7, 6, 5, 4, 3, 2, 1].foldl (decRound rks) s) = s :=
  foldl_reverse_foldl s (encRound_decRound rks) [9, 8, 7, 6, 5, 4, 3, 2, 1]

theorem decryptWith_encryptWith : decryptWith rks (encryptWith rks s) = s := by
  simp only [decryptWith, encryptWith, addRoundKey_addRoundKey, invShiftRows_shiftRows, invSubBytes_subBytes,
    decRounds_encRounds]

theorem encryptWith_decryptWith : encryptWith rks (decryptWith rks s) = s := by
  simp only [encryptWith, decryptWith, addRoundKey_addRoundKey, encRounds_decRounds, subBytes_invSubBytes,
    shiftRows_invShiftRows]

end RoundTrip

theorem decryptBlock_encryptBlock (p k : Block) : decryptBlock (encryptBlock p k) k = p := by
  rw [decryptBlock, encryptBlock, decodeBlock_encodeState, decryptWith_encryptWith, encodeState_decodeBlock]

theorem encryptBlock_decryptBlock (c k : Block) : encryptBlock (decryptBlock c k) k = c := by
  rw [encryptBlock, decryptBlock, decodeBlock_encodeState, encryptWith_decryptWith, encodeState_decodeBlock]

/-- Settles O41: round by round in reverse order, between the two directions of the codec. -/
theorem cipherRoundTrip : Obligations.CipherRoundTrip := fun p k =>
  ⟨decryptBlock_encryptBlock p k, encryptBlock_decryptBlock p k⟩

/-! ## The cipher commands -/

theorem exec_encryptBlock (s : State) :
    exec .encryptBlock s = .next (doneWith { expandKey s with dout := encryptBlock s.din s.key }) := rfl
theorem exec_decryptBlock (s : State) :
    exec .decryptBlock s = .next (doneWith { expandKey s with dout := decryptBlock s.din s.key }) := rfl

/-- Settles O43: the next state of each command, which keeps KEY, so that the other command undoes the cipher. -/
theorem blockCipherCommands : Obligations.BlockCipherCommands := by
  intro s
  refine ⟨⟨_, exec_encryptBlock s, rfl, _, exec_decryptBlock _, ?_⟩,
    ⟨_, exec_decryptBlock s, rfl, _, exec_encryptBlock _, ?_⟩⟩
  · simp only [doneWith_dout, doneWith_key, expandKey_key, decryptBlock_encryptBlock]
  · simp only [doneWith_dout, doneWith_key, expandKey_key, encryptBlock_decryptBlock]

/-! ## Commands in sequence -/

/-- The commands, one after the other, all succeed and take the first state to the second (30_encoding.md R92, R93). -/
inductive Completes : List Instr → State → State → Prop
  | nil {s : State} : Completes [] s s
  | cons {i : Instr} {is : List Instr} {s t u : State} (hwf : i.wf = true) (h : exec i s = .next t)
      (hok : t.errcode = .ok) (hrest : Completes is t u) : Completes (i :: is) s u

theorem Completes.append {is js : List Instr} {s t u : State} (h : Completes is s t) (h' : Completes js t u) :
    Completes (is ++ js) s u := by
  induction h with
  | nil => exact h'
  | cons hwf hexec hok _ ih => exact .cons hwf hexec hok (ih h')

/-- No command is pending after a completion (30_encoding.md R93). -/
theorem exec_pending {i : Instr} {s t : State} (h : exec i s = .next t) : t.pending = none := by
  obtain ⟨code, -, rfl⟩ | ⟨u, rfl, -⟩ := exec_cases h <;> rfl

/-- A host that executes such commands ends in the state they lead to, but for CMD_LAST and the log, which no command
reads (30_encoding.md R90). -/
theorem Completes.endsWith {P : HostRun → Prop} {is : List Instr} {s t : State} (h : Completes is s t)
    (hi : s.inputs = []) (hr : Ready s)
    (hP : ∀ ws last log, P ⟨[], ws, [], { t with cmdLast := last, busLog := log }⟩)
    (ws : List Word) (last : Word) (log : List BusRecord) :
    HostRun.EndsWith P
      ⟨(execProgram is).flatMap HostStmt.expand, ws, [], { s with cmdLast := last, busLog := log }⟩ := by
  induction h generalizing ws last log with
  | nil => exact .nil rfl hi hr (hP ws last log)
  | @cons i is s t u hwf hexec hok hrest ih =>
    obtain ⟨-, -, -, -, -, hready, -, hin, -⟩ := exec_keeps_common hexec
    have hexec' := exec_bookkeeping i s t last s.pending s.done s.errcode log s.inputs hexec
    refine .exec (G := fun _ => True) (fun _ _ _ _ => trivial) hi hr trivial (decodeCmd_encode hwf) hexec' hok
      fun ws' log' _ => ?_
    rw [← hin]
    exact ih (hin.trans hi) ⟨exec_pending hexec, hready.trans hr.2⟩ hP ws' (encode i) log'

/-! ## The primitive commands on ST -/

/-- ADD_ROUND_KEY with a round's number as its index (30_encoding.md R82). -/
def addRoundKeyOf (n : Fin 11) : Instr := .addRoundKey (BitVec.ofNat 4 n.val)

theorem addRoundKeyOf_wf (n : Fin 11) : (addRoundKeyOf n).wf = true := by
  revert n
  decide

/-- The round keys of the current KEY. -/
def expandedKeys (s : State) : RoundKeys := keySchedule (decodeBlock s.key)

/-- The state between two primitive commands: KEY expanded, and a in ST. -/
def working (s : State) (a : AesState) : State := doneWith { expandKey s with st := a }

section Working

variable (s : State) (a : AesState)

theorem exec_loadState_expanded : exec .loadState (doneWith (expandKey s)) = .next (working s (decodeBlock s.din)) :=
  exec_loadState (doneWith (expandKey s))
theorem exec_storeState_working :
    exec .storeState (working s a) = .next { working s a with dout := encodeState a } := rfl
theorem exec_subBytes_working : exec .subBytes (working s a) = .next (working s (subBytes a)) := rfl
theorem exec_invSubBytes_working : exec .invSubBytes (working s a) = .next (working s (invSubBytes a)) := rfl
theorem exec_shiftRows_working : exec .shiftRows (working s a) = .next (working s (shiftRows a)) := rfl
theorem exec_invShiftRows_working : exec .invShiftRows (working s a) = .next (working s (invShiftRows a)) := rfl
theorem exec_mixColumns_working : exec .mixColumns (working s a) = .next (working s (mixColumns a)) := rfl
theorem exec_invMixColumns_working : exec .invMixColumns (working s a) = .next (working s (invMixColumns a)) := rfl

theorem exec_addRoundKeyOf_working (n : Fin 11) :
    exec (addRoundKeyOf n) (working s a) = .next (working s (addRoundKey a ((expandedKeys s).get n))) := by
  have hidx : (BitVec.ofNat 4 n.val).toNat = n.val := Nat.mod_eq_of_lt (by omega)
  rw [addRoundKeyOf, exec_addRoundKey_valid (by omega) rfl]
  simp only [hidx]
  rfl

end Working

/-- A middle round of encryption, command by command (44_block_cipher.md R207). -/
def encRoundCommands (n : Fin 11) : List Instr := [.subBytes, .shiftRows, .mixColumns, addRoundKeyOf n]

/-- A middle round of decryption, command by command (44_block_cipher.md R201, R207). -/
def decRoundCommands (n : Fin 11) : List Instr := [addRoundKeyOf n, .invMixColumns, .invShiftRows, .invSubBytes]

section Rounds

variable (s : State) (a : AesState)

theorem encRoundCommands_complete (n : Fin 11) :
    Completes (encRoundCommands n) (working s a) (working s (encRound (expandedKeys s) a n)) :=
  .cons rfl (exec_subBytes_working s _) rfl <| .cons rfl (exec_shiftRows_working s _) rfl <|
    .cons rfl (exec_mixColumns_working s _) rfl <|
    .cons (addRoundKeyOf_wf n) (exec_addRoundKeyOf_working s _ n) rfl .nil

theorem decRoundCommands_complete (n : Fin 11) :
    Completes (decRoundCommands n) (working s a) (working s (decRound (expandedKeys s) a n)) :=
  .cons (addRoundKeyOf_wf n) (exec_addRoundKeyOf_working s _ n) rfl <|
    .cons rfl (exec_invMixColumns_working s _) rfl <| .cons rfl (exec_invShiftRows_working s _) rfl <|
    .cons rfl (exec_invSubBytes_working s _) rfl .nil

/-- Rounds in sequence fold the round function over ST. -/
theorem completes_flatMap {cmds : Fin 11 → List Instr} {f : AesState → Fin 11 → AesState}
    (h : ∀ a n, Completes (cmds n) (working s a) (working s (f a n))) (ns : List (Fin 11)) :
    Completes (ns.flatMap cmds) (working s a) (working s (ns.foldl f a)) := by
  induction ns generalizing a with
  | nil => exact .nil
  | cons n ns ih => exact (h a n).append (ih (f a n))

/-- The encrypting sequence between LOAD_STATE and STORE_STATE (44_block_cipher.md R200, R207). -/
theorem completes_encryptWith :
    Completes ([addRoundKeyOf 0] ++ [1, 2, 3, 4, 5, 6, 7, 8, 9].flatMap encRoundCommands ++
        [.subBytes, .shiftRows, addRoundKeyOf 10])
      (working s a) (working s (encryptWith (expandedKeys s) a)) := by
  have hfirst := Completes.cons (addRoundKeyOf_wf 0) (exec_addRoundKeyOf_working s a 0) rfl .nil
  refine (hfirst.append (completes_flatMap s _ (encRoundCommands_complete s) _)).append ?_
  exact .cons rfl (exec_subBytes_working s _) rfl <| .cons rfl (exec_shiftRows_working s _) rfl <|
    .cons (addRoundKeyOf_wf 10) (exec_addRoundKeyOf_working s _ 10) rfl .nil

/-- The mirror sequence between LOAD_STATE and STORE_STATE (44_block_cipher.md R201, R207). -/
theorem completes_decryptWith :
    Completes ([addRoundKeyOf 10, .invShiftRows, .invSubBytes] ++
        [9, 8, 7, 6, 5, 4, 3, 2, 1].flatMap decRoundCommands ++ [addRoundKeyOf 0])
      (working s a) (working s (decryptWith (expandedKeys s) a)) := by
  have hfirst := Completes.cons (addRoundKeyOf_wf 10) (exec_addRoundKeyOf_working s a 10) rfl <|
    .cons rfl (exec_invShiftRows_working s _) rfl <| .cons rfl (exec_invSubBytes_working s _) rfl .nil
  refine (hfirst.append (completes_flatMap s _ (decRoundCommands_complete s) _)).append ?_
  exact .cons (addRoundKeyOf_wf 0) (exec_addRoundKeyOf_working s _ 0) rfl .nil

end Rounds

/-- A host that expands the key, loads DIN, runs commands that turn ST into b, and stores, ends with b encoded in DOUT
(41_state_codec.md R145, R146). -/
theorem endsWith_stored {is : List Instr} {s : State} {b : AesState} (hr : Ready s)
    (h : Completes is (working (setInputs [] s) (decodeBlock s.din)) (working (setInputs [] s) b)) :
    (startProgram (execProgram ([.keyExpand, .loadState] ++ is ++ [.storeState])) s).EndsWith
      (fun r => r.core.dout = encodeState b) := by
  have hload : Completes [.keyExpand, .loadState] (setInputs [] s) (working (setInputs [] s) (decodeBlock s.din)) :=
    .cons rfl (exec_keyExpand _) rfl <| .cons rfl (exec_loadState_expanded _) rfl .nil
  have hstore := Completes.cons rfl (exec_storeState_working (setInputs [] s) b) rfl .nil
  exact ((hload.append h).append hstore).endsWith rfl hr (fun _ _ _ => rfl) [] s.cmdLast s.busLog

/-- Settles O44: between LOAD_STATE and STORE_STATE the primitive commands compute the cipher on ST. -/
theorem primitiveSequencesAgreeWithTheCipher : Obligations.PrimitiveSequencesAgreeWithTheCipher := fun s hr =>
  ⟨endsWith_stored hr (completes_encryptWith (setInputs [] s) _),
    endsWith_stored hr (completes_decryptWith (setInputs [] s) _)⟩

end Sys2Proof.Machine
end

section
/-! PROOFS. The counter of CTR as a number in base 256 (45_mode_controller.md R221, R222). -/

namespace Sys2Proof.Machine

/-- The bytes of a counter Block as digits in base 256, least significant first: byte 15 is digit 0
(45_mode_controller.md R221). -/
def ctrDigits (b : Block) : Fin 16 → Fin 256 := fun j => (b.get j.rev).toFin

theorem val_ctrDigits (b : Block) (j : Fin 16) : (ctrDigits b j).val = (b.get j.rev).toNat := rfl

theorem ctrToInt_eq_sum (b : Block) : ctrToInt b = ∑ i : Fin 16, (b.get i).toNat * 256 ^ (15 - i.val) :=
  (Fin.sum_univ_def _).symm

/-- Byte i of the Block of a number (45_mode_controller.md R221). -/
theorem toNat_get_ctrFromInt (n : Nat) (i : Fin 16) :
    ((ctrFromInt n).get i).toNat = n / 256 ^ (15 - i.val) % 256 := by
  rw [ctrFromInt, get_mkBlock, BitVec.toNat_ofNat, Nat.shiftRight_eq_div_pow, pow_mul]
  rfl

/-- toInt is the number that the digits denote. -/
theorem ctrToInt_eq_ofDigits (b : Block) : ctrToInt b = (finFunctionFinEquiv (ctrDigits b)).val := by
  rw [ctrToInt_eq_sum, finFunctionFinEquiv_apply, ← Equiv.sum_comp Fin.revPerm]
  refine Finset.sum_congr rfl fun j _ => ?_
  have hexp : 15 - j.rev.val = j.val := by rw [Fin.val_rev]; omega
  simp only [Fin.revPerm_apply, hexp]
  rfl

theorem ctrToInt_lt (b : Block) : ctrToInt b < 2 ^ 128 := by
  rw [ctrToInt_eq_ofDigits]
  exact Fin.is_lt _

/-- fromInt takes the digits of its number. -/
theorem ctrDigits_ctrFromInt {n : Nat} (h : n < 256 ^ 16) :
    ctrDigits (ctrFromInt n) = finFunctionFinEquiv.symm ⟨n, h⟩ := by
  funext j
  have hexp : 15 - j.rev.val = j.val := by rw [Fin.val_rev]; omega
  apply Fin.ext
  rw [finFunctionFinEquiv_symm_apply_val, val_ctrDigits, toNat_get_ctrFromInt, hexp]

theorem ctrToInt_ctrFromInt {n : Nat} (h : n < 2 ^ 128) : ctrToInt (ctrFromInt n) = n := by
  rw [ctrToInt_eq_ofDigits, ctrDigits_ctrFromInt (h.trans_eq (pow_mul 2 8 16)), Equiv.apply_symm_apply]

/-- A Block is its digits. -/
theorem ctrDigits_injective : Function.Injective ctrDigits := fun a b h =>
  block_ext fun i => by
    have hi := congrFun h i.rev
    simp only [ctrDigits, Fin.rev_rev] at hi
    exact BitVec.eq_of_toFin_eq hi

theorem ctrToInt_injective : Function.Injective ctrToInt := fun a b h => by
  rw [ctrToInt_eq_ofDigits, ctrToInt_eq_ofDigits] at h
  exact ctrDigits_injective (finFunctionFinEquiv.injective (Fin.ext h))

theorem ctrFromInt_ctrToInt (b : Block) : ctrFromInt (ctrToInt b) = b :=
  ctrToInt_injective (ctrToInt_ctrFromInt (ctrToInt_lt b))

/-- The increment adds one modulo 2^128 (45_mode_controller.md R222). -/
theorem ctrToInt_ctrInc (b : Block) : ctrToInt (ctrInc b) = (ctrToInt b + 1) % 2 ^ 128 :=
  ctrToInt_ctrFromInt (Nat.mod_lt _ (by decide))

/-- Settles O45: the bytes are the digits of the number in base 256. -/
theorem counterIncrementsModulo : Obligations.CounterIncrementsModulo :=
  ⟨ctrToInt_eq_sum, toNat_get_ctrFromInt, fun b => ⟨ctrToInt_lt b, ctrFromInt_ctrToInt b⟩,
    fun _ => ctrToInt_ctrFromInt, ctrToInt_ctrInc, by decide⟩

end Sys2Proof.Machine
end

section
/-! PROOFS. MODE_START, MODE_BLOCK and MODE_END: the next state of each, what they do to MODE and CHAIN, and CTR over
many blocks (45_mode_controller.md R223 to R227, R239). -/

namespace Sys2Proof.Machine

/-- The one ill-formed MODE_START fails (log entry 11). -/
theorem exec_modeStart_illegal (s : State) : exec (.modeStart .cbcDec true) s = .next (failedWith .illegalCmd s) := rfl

/-- Settles O46: the first Block from IV and from a draw, and the ill-formed term. -/
theorem modeStartCommand : Obligations.ModeStartCommand := by
  refine ⟨fun s m => ?_, fun s m hm => ⟨_, rfl, ?_⟩, exec_modeStart_illegal⟩
  · have hwf : (Instr.modeStart m false).wf = true := by simp [Instr.wf]
    exact exec_modeStart_wf hwf
  · have hwf : (Instr.modeStart m true).wf = true := by simp [Instr.wf, hm]
    exact exec_modeStart_wf hwf

/-- Settles O47: one lemma for each mode and each cause of failure. -/
theorem modeBlockCommand : Obligations.ModeBlockCommand :=
  ⟨fun _ hm hv => ⟨_, rfl, exec_modeBlock_cbcEnc hm hv⟩, fun _ => exec_modeBlock_cbcDec, fun _ => exec_modeBlock_ctr,
    fun _ h => h.elim exec_modeBlock_idle exec_modeBlock_invalid⟩

theorem exec_modeEnd (s : State) :
    exec .modeEnd s = .next (doneWith { s with mode := .idle, chain := zeroBlock }) := rfl

/-- Settles O50: the next state is in IDLE, where MODE_BLOCK fails. -/
theorem modeEndCommand : Obligations.ModeEndCommand := fun s =>
  ⟨_, exec_modeEnd s, rfl, exec_modeBlock_idle rfl⟩

section Transitions

variable {s t : State}

/-- A completion with an error code writes nothing but the bookkeeping (30_encoding.md R93). -/
theorem exec_failed {i : Instr} (h : exec i s = .next t) (herr : t.errcode ≠ .ok) : ∃ code, t = failedWith code s := by
  obtain ⟨code, -, rfl⟩ | ⟨u, rfl, -⟩ := exec_cases h
  · exact ⟨code, rfl⟩
  · exact absurd rfl herr

/-- MODE_START without an error begins the message (45_mode_controller.md R223). -/
theorem exec_modeStart_ok {m : StartMode} {rng : Bool} (h : exec (.modeStart m rng) s = .next t)
    (hok : t.errcode = .ok) :
    t = doneWith (beginMessage m (startPrefix rng s) (afterPrefix rng s)) := by
  cases hwf : (Instr.modeStart m rng).wf with
  | true => exact Host.Outcome.next.inj (h.symm.trans (exec_modeStart_wf hwf))
  | false =>
    obtain ⟨rfl, rfl⟩ : m = .cbcDec ∧ rng = true := by simpa [Instr.wf] using hwf
    cases (exec_modeStart_illegal s).symm.trans h
    cases hok

/-- MODE_BLOCK without an error stays in its mode, which is not IDLE (45_mode_controller.md R224, R227). -/
theorem exec_modeBlock_ok (h : exec .modeBlock s = .next t) (hok : t.errcode = .ok) :
    t.mode = s.mode ∧ s.mode ≠ .idle := by
  refine ⟨?_, fun hm => ?_⟩
  · obtain ⟨code, rfl⟩ | ⟨-, c, d, rfl⟩ := execModeBlock_next h <;> rfl
  · cases (exec_modeBlock_idle hm).symm.trans h
    cases hok

end Transitions

/-- Settles O52: a failing command by exec_failed, the three commands of the mode controller each by its lemma, and
every other command by exec_keeps_unwritten. -/
theorem modeTransitions : Obligations.ModeTransitions := by
  intro i s t h
  refine ⟨fun herr => ?_, fun hok => ?_⟩
  · obtain ⟨code, rfl⟩ := exec_failed h herr
    exact ⟨rfl, rfl⟩
  · obtain ⟨-, -, -, -, hchain, -⟩ := exec_keeps_unwritten h
    cases i with
    | modeStart m rng =>
      cases exec_modeStart_ok h hok
      exact ⟨rfl, rfl, by rintro rfl; rfl⟩
    | modeBlock => exact exec_modeBlock_ok h hok
    | modeEnd => cases h; exact ⟨rfl, rfl⟩
    | _ => exact (hchain rfl).symm

/-- Settles O55: each byte of DOUT is the same byte of DIN under a key stream that does not depend on DIN. -/
theorem partialCtrBlockFillNeverReachesOutput : Obligations.PartialCtrBlockFillNeverReachesOutput := by
  intro s t u d e len hm hv hde ht hu
  cases ht.symm.trans (exec_modeBlock_ctr hm hv)
  cases hu.symm.trans (exec_modeBlock_ctr hm hv)
  refine ⟨rfl, fun i hi => ?_⟩
  simp [ctrStep, hde i hi]

/-! ## CTR over many blocks -/

/-- A state of a CTR message under a key, n blocks after the counter c (45_mode_controller.md R225). -/
structure CtrAfter (key c : Block) (n : Nat) (s : State) : Prop where
  mode    : s.mode = .ctr
  rkValid : s.rkValid = true
  key     : s.key = key
  counter : ctrToInt s.chain = (ctrToInt c + n) % 2 ^ 128

section Counting

variable {key c d : Block} {n : Nat} {s t : State}

/-- The next counter Block (45_mode_controller.md R222). -/
theorem CtrAfter.ctrInc_chain (h : CtrAfter key c n s) :
    ctrInc s.chain = ctrFromInt ((ctrToInt c + (n + 1)) % 2 ^ 128) := by
  rw [ctrInc, h.counter, Nat.mod_add_mod, add_assoc]

/-- One MODE_BLOCK, with any DIN: its output, and the state one block further on (45_mode_controller.md R224, R225). -/
theorem CtrAfter.modeBlock (h : CtrAfter key c n s) (hexec : exec .modeBlock { s with din := d } = .next t) :
    t.dout = blockXor d (encryptBlock (ctrFromInt ((ctrToInt c + (n + 1)) % 2 ^ 128)) key) ∧
      CtrAfter key c (n + 1) t := by
  cases hexec.symm.trans (exec_modeBlock_ctr h.mode h.rkValid)
  refine ⟨?_, h.mode, h.rkValid, h.key, ?_⟩
  · rw [← h.ctrInc_chain, ← h.key]
    rfl
  · change ctrToInt (ctrInc s.chain) = _
    rw [ctrToInt_ctrInc, h.counter, Nat.mod_add_mod, add_assoc]

end Counting

/-- Settles O49: after j blocks the counter is the first CHAIN plus j. -/
theorem ctrCounterConvention : Obligations.CtrCounterConvention := by
  intro σ d hm hv hσ j
  have hafter (n : Nat) : CtrAfter (σ 0).key (σ 0).chain n (σ n) := by
    induction n with
    | zero => exact ⟨hm, hv, rfl, by rw [add_zero, Nat.mod_eq_of_lt (ctrToInt_lt _)]⟩
    | succ n ih => exact (ih.modeBlock (hσ n)).2
  exact ((hafter j).modeBlock (hσ j)).1

end Sys2Proof.Machine
end

section
/-! PROOFS. The message functions: their checks, their lengths, their round trips, and CBC under distinct IVs
(45_mode_controller.md R230 to R237). -/

namespace Sys2Proof.Machine

/-! ## The boundary checks -/

section Checks

variable {p c key : List Byte} {mode : CipherMode} {iv : Option (List Byte)} {draw : Block} {fill : Nat → Block}
  {e : MsgError}

/-- The second check of encrypt finds an IV of another length than 16 (45_mode_controller.md R230). -/
theorem ivCheck_iff (iv : Option (List Byte)) :
    iv.any (fun v => decide (v.length ≠ 16)) = true ↔ ∃ v, iv = some v ∧ v.length ≠ 16 := by
  simp [Option.any_eq_true]

theorem ivCheck_eq_false_iff (iv : Option (List Byte)) :
    iv.any (fun v => decide (v.length ≠ 16)) = false ↔ ∀ v, iv = some v → v.length = 16 := by
  simp [Option.any_eq_false]

/-- The first failing check of encrypt (45_mode_controller.md R230). -/
theorem encryptCheck_eq_some_iff :
    encryptCheck p key mode iv = some e ↔
      (key.length ≠ 16 ∧ e = .invalidLength) ∨
      (key.length = 16 ∧ (∃ v, iv = some v ∧ v.length ≠ 16) ∧ e = .invalidLength) ∨
      (key.length = 16 ∧ (∀ v, iv = some v → v.length = 16) ∧ mode = .other ∧ e = .unsupportedMode) ∨
      (key.length = 16 ∧ (∀ v, iv = some v → v.length = 16) ∧ mode = .cbc ∧ p.length % 16 ≠ 0 ∧
        e = .invalidLength) := by
  rw [encryptCheck, ← ivCheck_iff, ← ivCheck_eq_false_iff]
  by_cases hkey : key.length = 16
  · cases iv.any (fun v => decide (v.length ≠ 16)) with
    | true => simp [hkey, eq_comm (a := e)]
    | false => cases mode <;> by_cases hp : p.length % 16 = 0 <;> simp [hkey, hp, eq_comm (a := e)]
  · simp [hkey, eq_comm (a := e)]

theorem encryptCheck_eq_none_iff :
    encryptCheck p key mode iv = none ↔
      key.length = 16 ∧ (∀ v, iv = some v → v.length = 16) ∧ mode ≠ .other ∧ (mode = .cbc → p.length % 16 = 0) := by
  rw [encryptCheck, ← ivCheck_eq_false_iff]
  by_cases hkey : key.length = 16
  · cases iv.any (fun v => decide (v.length ≠ 16)) with
    | true => simp [hkey]
    | false => cases mode <;> simp [hkey]
  · simp [hkey]

/-- The first failing check of decrypt (45_mode_controller.md R230). -/
theorem decryptCheck_eq_some_iff :
    decryptCheck c key mode = some e ↔
      (key.length ≠ 16 ∧ e = .invalidLength) ∨ (key.length = 16 ∧ mode = .other ∧ e = .unsupportedMode) ∨
      (key.length = 16 ∧ mode ≠ .other ∧ c.length < 16 ∧ e = .malformedCiphertext) ∨
      (key.length = 16 ∧ mode = .cbc ∧ 16 ≤ c.length ∧ (c.length - 16) % 16 ≠ 0 ∧ e = .malformedCiphertext) := by
  unfold decryptCheck
  by_cases hkey : key.length = 16
  · by_cases hlen : c.length < 16
    · cases mode <;> simp [hkey, hlen, eq_comm (a := e)]
    · cases mode <;> by_cases hp : (c.length - 16) % 16 = 0 <;> simp [hkey, hlen, hp, not_lt.1 hlen, eq_comm (a := e)]
  · simp [hkey, eq_comm (a := e)]

theorem decryptCheck_eq_none_iff :
    decryptCheck c key mode = none ↔
      key.length = 16 ∧ mode ≠ .other ∧ 16 ≤ c.length ∧ (mode = .cbc → (c.length - 16) % 16 = 0) := by
  unfold decryptCheck
  by_cases hkey : key.length = 16
  · by_cases hlen : c.length < 16
    · cases mode <;> simp [hkey, hlen]
    · cases mode <;> simp [hkey, hlen, not_lt.1 hlen]
  · simp [hkey]

/-- encrypt fails exactly by its checks. -/
theorem encryptMessage_eq_error_iff :
    encryptMessage p key mode iv draw = .error e ↔ encryptCheck p key mode iv = some e := by
  unfold encryptMessage
  cases encryptCheck p key mode iv with
  | some e' => simp
  | none => cases mode <;> simp

/-- decrypt fails exactly by its checks. -/
theorem decryptMessage_eq_error_iff : decryptMessage c key mode = .error e ↔ decryptCheck c key mode = some e := by
  unfold decryptMessage
  cases decryptCheck c key mode with
  | some e' => simp
  | none => cases mode <;> simp

theorem driveEncrypt_eq_error_iff :
    driveEncrypt p key mode iv fill = .error e ↔ encryptCheck p key mode iv = some e := by
  unfold driveEncrypt
  cases encryptCheck p key mode iv <;> simp

theorem driveDecrypt_eq_error_iff : driveDecrypt c key mode fill = .error e ↔ decryptCheck c key mode = some e := by
  unfold driveDecrypt
  cases decryptCheck c key mode <;> simp

end Checks

/-- Settles O56: the message functions and the driver fail by the same checks. -/
theorem boundaryChecksInOrder : Obligations.BoundaryChecksInOrder := by
  intro x key mode iv draw fill e
  rw [encryptMessage_eq_error_iff, decryptMessage_eq_error_iff, driveEncrypt_eq_error_iff, driveDecrypt_eq_error_iff]
  exact ⟨encryptCheck_eq_some_iff, decryptCheck_eq_some_iff, Iff.rfl, Iff.rfl⟩

/-! ## What a successful call returns -/

/-- What encrypt and decrypt make of the pieces after the first Block, by the driver's mode (45_mode_controller.md R231
to R233, R238). -/
def streamPieces (m : StartMode) (key v : Block) (ps : List (List Byte)) : List Byte :=
  match m with
  | .cbcEnc => cbcEncrypt key v ps
  | .cbcDec => cbcDecrypt key v ps
  | .ctr => ctrPieces key v ps

/-- Data of whole pieces, as CBC needs it (45_mode_controller.md R230). -/
def WholeFor (m : StartMode) (l : List Byte) : Prop := m ≠ .ctr → l.length % 16 = 0

section Success

variable {p c key : List Byte} {mode : CipherMode} {iv : Option (List Byte)} {draw : Block} {out : List Byte}

theorem encryptMessage_of_checked (h : encryptCheck p key mode iv = none) :
    encryptMessage p key mode iv draw =
      .ok (blockBytes (messagePrefix iv draw) ++
        streamPieces (driverMode mode .enc) (blockOfBytes key) (messagePrefix iv draw) (pieces p)) := by
  cases mode <;> simp only [encryptMessage, h] <;> rfl

theorem decryptMessage_of_checked (h : decryptCheck c key mode = none) :
    decryptMessage c key mode =
      .ok (streamPieces (driverMode mode .dec) (blockOfBytes key) (blockOfBytes (c.take 16)) (pieces (c.drop 16))) := by
  cases mode <;> simp only [decryptMessage, h] <;> rfl

theorem encryptMessage_eq_ok (h : encryptMessage p key mode iv draw = .ok out) :
    encryptCheck p key mode iv = none ∧
      out = blockBytes (messagePrefix iv draw) ++
        streamPieces (driverMode mode .enc) (blockOfBytes key) (messagePrefix iv draw) (pieces p) := by
  cases hc : encryptCheck p key mode iv with
  | some e => cases (encryptMessage_eq_error_iff.2 hc).symm.trans h
  | none => exact ⟨rfl, (Except.ok.inj ((encryptMessage_of_checked hc).symm.trans h)).symm⟩

theorem decryptMessage_eq_ok (h : decryptMessage c key mode = .ok out) :
    decryptCheck c key mode = none ∧
      out = streamPieces (driverMode mode .dec) (blockOfBytes key) (blockOfBytes (c.take 16)) (pieces (c.drop 16)) := by
  cases hc : decryptCheck c key mode with
  | some e => cases (decryptMessage_eq_error_iff.2 hc).symm.trans h
  | none => exact ⟨rfl, (Except.ok.inj ((decryptMessage_of_checked hc).symm.trans h)).symm⟩

/-- The checks of encrypt leave whole pieces to CBC. -/
theorem wholeFor_of_encryptCheck (h : encryptCheck p key mode iv = none) : WholeFor (driverMode mode .enc) p := by
  obtain ⟨-, -, -, hcbc⟩ := encryptCheck_eq_none_iff.1 h
  cases mode with
  | cbc => exact fun _ => hcbc rfl
  | ctr | other => exact fun hne => absurd rfl hne

/-- The checks of decrypt leave whole pieces to CBC. -/
theorem wholeFor_of_decryptCheck (h : decryptCheck c key mode = none) :
    WholeFor (driverMode mode .dec) (c.drop 16) := by
  obtain ⟨-, -, -, hcbc⟩ := decryptCheck_eq_none_iff.1 h
  cases mode with
  | cbc => exact fun _ => by rw [List.length_drop]; exact hcbc rfl
  | ctr | other => exact fun hne => absurd rfl hne

end Success

/-! ## Lengths -/

/-- The key stream of CTR: n counter Blocks after ctr, encrypted (45_mode_controller.md R225, R233). -/
def keyStream (key : Block) : Block → Nat → List Byte
  | _, 0 => []
  | ctr, n + 1 => blockBytes (encryptBlock (ctrInc ctr) key) ++ keyStream key (ctrInc ctr) n

section Lengths

variable (key v : Block)

theorem length_keyStream (n : Nat) : (keyStream key v n).length = 16 * n := by
  induction n generalizing v with
  | zero => rfl
  | succ n ih => simp [keyStream, ih]; omega

/-- CTR is the XOR with the key stream of as many Blocks as there are pieces (45_mode_controller.md R233). -/
theorem ctrPieces_eq_zipWith (l : List Byte) :
    ctrPieces key v (pieces l) = List.zipWith (· ^^^ ·) l (keyStream key v (pieces l).length) := by
  induction l using bytes_induction generalizing v with
  | h0 => rfl
  | hs l hl ih =>
    rw [pieces_cons hl, ctrPieces, ih, List.length_cons, keyStream,
      ← List.take_append_drop 16 (List.zipWith _ l _), List.take_zipWith, List.drop_zipWith, take_blockBytes,
      drop_blockBytes]

theorem length_le_keyStream (l : List Byte) : l.length ≤ (keyStream key v (pieces l).length).length := by
  rw [length_keyStream, length_pieces]
  omega

theorem length_ctrPieces (l : List Byte) : (ctrPieces key v (pieces l)).length = l.length := by
  rw [ctrPieces_eq_zipWith, List.length_zipWith]
  exact min_eq_left (length_le_keyStream key v l)

theorem length_cbcEncrypt (ps : List (List Byte)) : (cbcEncrypt key v ps).length = 16 * ps.length := by
  induction ps generalizing v with
  | nil => rfl
  | cons x ps ih => simp [cbcEncrypt, ih]; omega

theorem length_cbcDecrypt (ps : List (List Byte)) : (cbcDecrypt key v ps).length = 16 * ps.length := by
  induction ps generalizing v with
  | nil => rfl
  | cons x ps ih => simp [cbcDecrypt, ih]; omega

/-- The data keeps its length (45_mode_controller.md R234). -/
theorem length_streamPieces {m : StartMode} {l : List Byte} (h : WholeFor m l) :
    (streamPieces m key v (pieces l)).length = l.length := by
  have hwhole (hm : m ≠ .ctr) : 16 * (pieces l).length = l.length := by
    have := h hm
    rw [length_pieces]
    omega
  cases m with
  | cbcEnc => exact (length_cbcEncrypt key v _).trans (hwhole (by decide))
  | cbcDec => exact (length_cbcDecrypt key v _).trans (hwhole (by decide))
  | ctr => exact length_ctrPieces key v l

end Lengths

/-- Settles O57: one Block stands before the data, and the data keeps its length. -/
theorem messageOutputLengths : Obligations.MessageOutputLengths := by
  refine ⟨fun p key mode iv draw out h => ?_, fun c key mode out h => ?_⟩
  · obtain ⟨hc, rfl⟩ := encryptMessage_eq_ok h
    obtain ⟨-, -, -, hcbc⟩ := encryptCheck_eq_none_iff.1 hc
    refine ⟨?_, hcbc⟩
    rw [List.length_append, length_blockBytes, length_streamPieces _ _ (wholeFor_of_encryptCheck hc)]
  · obtain ⟨hc, rfl⟩ := decryptMessage_eq_ok h
    rw [length_streamPieces _ _ (wholeFor_of_decryptCheck hc), List.length_drop]

/-! ## Round trips -/

/-- A Block at the front of a byte string is its first piece. -/
theorem pieces_blockBytes_append (b : Block) (l : List Byte) :
    pieces (blockBytes b ++ l) = blockBytes b :: pieces l := by
  have hne : blockBytes b ++ l ≠ [] := List.ne_nil_of_length_pos (by simp)
  rw [pieces_cons hne, take_blockBytes, drop_blockBytes]

theorem blockXor_blockXor (a b : Block) : blockXor (blockXor a b) b = a :=
  block_ext fun i => by simp

section RoundTrips

variable (key v : Block)

/-- CBC decryption undoes CBC encryption of whole pieces (45_mode_controller.md R237 (a)). -/
theorem cbcDecrypt_cbcEncrypt (l : List Byte) (hl : l.length % 16 = 0) :
    cbcDecrypt key v (pieces (cbcEncrypt key v (pieces l))) = l := by
  induction l using bytes_induction generalizing v with
  | h0 => simp [pieces_nil, cbcEncrypt, cbcDecrypt]
  | hs l hne ih =>
    have hpos := List.length_pos_of_ne_nil hne
    have hfirst : (l.take 16).length = 16 := by rw [List.length_take]; omega
    have hrest : (l.drop 16).length % 16 = 0 := by rw [List.length_drop]; omega
    rw [pieces_cons hne, cbcEncrypt, pieces_blockBytes_append, cbcDecrypt, blockOfBytes_blockBytes,
      decryptBlock_encryptBlock, blockXor_blockXor, blockBytes_blockOfBytes _ hfirst, ih _ hrest, List.take_append_drop]

/-- XOR with a list at least as long, twice. -/
theorem zipWith_xor_zipWith_xor {x ks : List Byte} (h : x.length ≤ ks.length) :
    List.zipWith (· ^^^ ·) (List.zipWith (· ^^^ ·) x ks) ks = x := by
  apply List.ext_getElem
  · simp [h]
  · intro i h1 h2
    simp

/-- CTR undoes itself (45_mode_controller.md R237 (c)). -/
theorem ctrPieces_ctrPieces (l : List Byte) : ctrPieces key v (pieces (ctrPieces key v (pieces l))) = l := by
  have hlen : (pieces (ctrPieces key v (pieces l))).length = (pieces l).length := by
    rw [length_pieces, length_ctrPieces, length_pieces]
  rw [ctrPieces_eq_zipWith, hlen, ctrPieces_eq_zipWith]
  exact zipWith_xor_zipWith_xor (length_le_keyStream key v l)

/-- The two directions of a mode undo each other on the data (45_mode_controller.md R237 (a), (b)). -/
theorem streamPieces_dec_enc {mode : CipherMode} {l : List Byte} (h : WholeFor (driverMode mode .enc) l) :
    streamPieces (driverMode mode .dec) key v (pieces (streamPieces (driverMode mode .enc) key v (pieces l))) = l := by
  cases mode with
  | cbc => exact cbcDecrypt_cbcEncrypt key v l (h (by decide))
  | ctr | other => exact ctrPieces_ctrPieces key v l

end RoundTrips

/-- Settles O58: the output passes the checks of decrypt, and the two directions undo each other on the data. -/
theorem messageRoundTrips : Obligations.MessageRoundTrips := by
  refine ⟨fun p key mode iv draw out h => ?_, fun x k c0 => ctrPieces_ctrPieces k c0 x⟩
  obtain ⟨hlen, -⟩ := messageOutputLengths.1 p key mode iv draw out h
  obtain ⟨hc, hout⟩ := encryptMessage_eq_ok h
  obtain ⟨hkey, -, hmode, hcbc⟩ := encryptCheck_eq_none_iff.1 hc
  have hdec : decryptCheck out key mode = none :=
    decryptCheck_eq_none_iff.2 ⟨hkey, hmode, by omega, fun hm => by have := hcbc hm; omega⟩
  rw [decryptMessage_of_checked hdec, hout, take_blockBytes, drop_blockBytes, blockOfBytes_blockBytes,
    streamPieces_dec_enc _ _ (wholeFor_of_encryptCheck hc)]

/-! ## CBC under distinct IVs -/

theorem piece_zero_blockBytes_append (b : Block) (l : List Byte) : piece (blockBytes b ++ l) 0 = blockBytes b :=
  take_blockBytes b l

theorem piece_succ_blockBytes_append (b : Block) (l : List Byte) (j : Nat) :
    piece (blockBytes b ++ l) (j + 1) = piece l j := by
  rw [piece, Nat.mul_succ, Nat.add_comm, ← List.drop_drop, drop_blockBytes, piece]

theorem blockBytes_injective : Function.Injective blockBytes :=
  Function.LeftInverse.injective blockOfBytes_blockBytes

theorem encryptBlock_injective (key : Block) : Function.Injective (encryptBlock · key) :=
  Function.LeftInverse.injective (g := (decryptBlock · key)) fun p => decryptBlock_encryptBlock p key

theorem blockXor_left_injective (a : Block) : Function.Injective (blockXor a) := fun b c h =>
  block_ext fun i => by simpa using congrArg (·.get i) h

/-- Distinct chaining values give distinct ciphertext Blocks, which are the next chaining values
(45_mode_controller.md R237 (d)). -/
theorem piece_cbcEncrypt_ne (key : Block) (ps : List (List Byte)) {v v' : Block} (hv : v ≠ v') {j : Nat}
    (hj : j < ps.length) : piece (cbcEncrypt key v ps) j ≠ piece (cbcEncrypt key v' ps) j := by
  induction ps generalizing v v' j with
  | nil => exact absurd hj (Nat.not_lt_zero j)
  | cons x ps ih =>
    have hc : encryptBlock (blockXor (blockOfBytes x) v) key ≠ encryptBlock (blockXor (blockOfBytes x) v') key :=
      fun h => hv (blockXor_left_injective _ (encryptBlock_injective key h))
    rw [cbcEncrypt, cbcEncrypt]
    cases j with
    | zero =>
      rw [piece_zero_blockBytes_append, piece_zero_blockBytes_append]
      exact blockBytes_injective.ne hc
    | succ j =>
      rw [piece_succ_blockBytes_append, piece_succ_blockBytes_append]
      exact ih hc (Nat.lt_of_succ_lt_succ hj)

/-- Settles O59: the prefixes are the IVs, and the ciphertext Blocks differ by piece_cbcEncrypt_ne. -/
theorem distinctIvsDifferInEveryBlock : Obligations.DistinctIvsDifferInEveryBlock := by
  intro p key iv iv' draw draw' out out' hne h h' j hj
  obtain ⟨hc, rfl⟩ := encryptMessage_eq_ok h
  obtain ⟨hc', rfl⟩ := encryptMessage_eq_ok h'
  obtain ⟨-, hlen, -, -⟩ := encryptCheck_eq_none_iff.1 hc
  obtain ⟨-, hlen', -, -⟩ := encryptCheck_eq_none_iff.1 hc'
  have hv : blockOfBytes iv ≠ blockOfBytes iv' := fun heq => hne <| by
    rw [← blockBytes_blockOfBytes iv (hlen iv rfl), heq, blockBytes_blockOfBytes iv' (hlen' iv' rfl)]
  cases j with
  | zero =>
    rw [piece_zero_blockBytes_append, piece_zero_blockBytes_append]
    exact blockBytes_injective.ne hv
  | succ j =>
    rw [piece_succ_blockBytes_append, piece_succ_blockBytes_append]
    exact piece_cbcEncrypt_ne _ _ hv (by rw [length_pieces]; omega)

end Sys2Proof.Machine
end

section
/-! PROOFS. The driver's host program beside the core: one rule for each statement it uses, the loop over the pieces,
and what the Blocks it reads amount to (30_encoding.md R89, R90; 45_mode_controller.md R238 to R240). -/

namespace Sys2Proof.Machine

/-! ## Rules for statements -/

/-- A host program that starts on a core the host may use ends with P, whatever the host has read, whatever CMD_LAST is,
and on any log that shows no ERR. -/
def ProgramEnds (P : HostRun → Prop) (prog : List HostStmt) (bs : List Block) (s : State) : Prop :=
  s.inputs = [] → Ready s → ∀ ws last log, NoErrShown log →
    HostRun.EndsWith P ⟨prog.flatMap HostStmt.expand, ws, bs, { s with cmdLast := last, busLog := log }⟩

/-- CMD is the first word of the window (20_memory.md R54). -/
theorem regionOf_ne_cmd {off : Nat} (h : 0x004 ≤ off) : regionOf off ≠ .cmd := by
  intro hr
  have hlt : off < 0x004 := by simpa [hr] using regionOf_cases off
  omega

section AfterWrite

variable {off : Nat} (hcmd : regionOf off ≠ .cmd) (w : Word) (s : State)

include hcmd

/-- A write to any word but CMD issues nothing (30_encoding.md R91). -/
theorem windowWrite_pending : (windowWrite off w s).pending = s.pending := by
  unfold windowWrite
  split
  case h_1 h => exact absurd h hcmd
  case h_2 => rw [statusWrite_eq]
  all_goals rfl

/-- A write to any word but CMD looks neither at CMD_LAST nor at the log. -/
theorem windowWrite_bookkeeping (last : Word) (log : List BusRecord) :
    windowWrite off w { s with cmdLast := last, busLog := log } =
      { windowWrite off w s with cmdLast := last, busLog := log } := by
  unfold windowWrite
  split
  case h_1 h => exact absurd h hcmd
  case h_2 => rw [statusWrite_eq, statusWrite_eq]
  all_goals rfl

end AfterWrite

/-- The state after the four word writes of WRB (30_encoding.md R90). -/
def writeBlock (off : Nat) (b : Block) (s : State) : State :=
  (List.finRange 4).foldl (fun s k => windowWrite (off + 4 * k.val) (blockWord b k) s) s

section WriteBlock

variable (b : Block) (s : State)

theorem writeBlock_key : writeBlock 0x010 b s = { s with key := b, rkValid := false } := by
  simp [writeBlock, List.finRange, windowWrite_key, setBlockWord_all]

theorem writeBlock_din : writeBlock 0x020 b s = { s with din := b } := by
  simp [writeBlock, List.finRange, windowWrite_din, setBlockWord_all]

theorem writeBlock_iv : writeBlock 0x040 b s = { s with iv := b } := by
  simp [writeBlock, List.finRange, windowWrite_iv, setBlockWord_all]

end WriteBlock

section Rules

variable {P : HostRun → Prop} {prog : List HostStmt} {bs : List Block} {s t : State}

theorem noErrShown_nil : NoErrShown [] := fun _ h => absurd h List.not_mem_nil

/-- The end of the program. -/
theorem ProgramEnds.nil
    (h : ∀ ws last log, NoErrShown log → P ⟨[], ws, bs, { s with cmdLast := last, busLog := log }⟩) :
    ProgramEnds P [] bs s :=
  fun hi hr ws last log hl => .nil rfl hi hr (h ws last log hl)

/-- WR to any word but CMD. -/
theorem ProgramEnds.wr {off : Nat} {w : Word} (ho : WordOffset off) (hoff : 0x004 ≤ off)
    (h : ProgramEnds P prog bs (windowWrite off w s)) : ProgramEnds P (.wr off w :: prog) bs s := by
  intro hi hr ws last log hl
  have hcmd := regionOf_ne_cmd hoff
  obtain ⟨-, -, -, -, -, -, hready, -, hin, -⟩ := windowWrite_keeps off w s
  refine .wr ho hi hr ?_
  rw [windowWrite_bookkeeping hcmd]
  exact h (hin.trans hi) ⟨(windowWrite_pending hcmd w s).trans hr.1, hready.trans hr.2⟩ ws last _
    (keptByGoodReads_noErrShown _ _ (fun h => nomatch h) hl)

/-- WRB to a register: its four WR (30_encoding.md R90). -/
theorem ProgramEnds.wrb {off : Nat} {b : Block} (hal : off % 4 = 0) (hlo : 0x004 ≤ off) (hhi : off < 0x100)
    (h : ProgramEnds P prog bs (writeBlock off b s)) : ProgramEnds P (.wrb off b :: prog) bs s := by
  have hwrites (ks : List (Fin 4)) (s : State)
      (h : ProgramEnds P prog bs (ks.foldl (fun s k => windowWrite (off + 4 * k.val) (blockWord b k) s) s)) :
      ProgramEnds P (ks.map (fun k => .wr (off + 4 * k.val) (blockWord b k)) ++ prog) bs s := by
    induction ks generalizing s with
    | nil => exact h
    | cons k ks ih => exact .wr ⟨by omega, by omega⟩ (by omega) (ih _ h)
  exact hwrites (List.finRange 4) s h

/-- RD of one word of DOUT. -/
theorem HostRun.EndsWith.rd_dout {k : Fin 4} {rest : List HostOp} {ws : List Word} (hi : s.inputs = []) (hr : Ready s)
    (hl : NoErrShown s.busLog)
    (h : ∀ log, NoErrShown log → HostRun.EndsWith P ⟨rest, blockWord s.dout k :: ws, bs, { s with busLog := log }⟩) :
    HostRun.EndsWith P ⟨.rd (0x030 + 4 * k.val) :: rest, ws, bs, s⟩ := by
  refine .rd ⟨by omega, by omega⟩ hi hr ?_
  rw [windowRead_dout]
  exact h _ (keptByGoodReads_noErrShown _ _ (fun _ hoff => absurd hoff (by simp; omega)) hl)

/-- RDB of DOUT: its four RD, joined (30_encoding.md R90). -/
theorem ProgramEnds.rdb_dout (h : ProgramEnds P prog (bs ++ [s.dout]) s) : ProgramEnds P (.rdb 0x030 :: prog) bs s := by
  intro hi hr ws last log hl
  rw [← joinWords_blockWords s.dout] at h
  exact .rd_dout (k := 0) hi hr hl fun _ hl => .rd_dout (k := 1) hi hr hl fun _ hl =>
    .rd_dout (k := 2) hi hr hl fun _ hl => .rd_dout (k := 3) hi hr hl fun _ hl => .join hi hr (h hi hr _ last _ hl)

/-- EXEC of a well-formed command that succeeds (30_encoding.md R90). -/
theorem ProgramEnds.exec {i : Instr} (hwf : i.wf = true) (hexec : exec i s = .next t) (hok : t.errcode = .ok)
    (h : ProgramEnds P prog bs t) : ProgramEnds P (.exec (encode i) :: prog) bs s := by
  intro hi hr ws last log hl
  obtain ⟨-, -, -, -, -, hready, -, hin, -⟩ := exec_keeps_common hexec
  have hexec' := exec_bookkeeping i s t last s.pending s.done s.errcode log s.inputs hexec
  refine .exec keptByGoodReads_noErrShown hi hr hl (decodeCmd_encode hwf) hexec' hok fun ws' log' hl' => ?_
  rw [← hin]
  exact h (hin.trans hi) ⟨exec_pending hexec, hready.trans hr.2⟩ ws' (encode i) log' hl'

/-- A program on any core the host may use, from an empty log. -/
theorem ProgramEnds.startProgram (h : ProgramEnds P prog [] (setInputs [] s)) (hr : Ready s) :
    (startProgram prog { s with busLog := [] }).EndsWith P :=
  h rfl hr [] s.cmdLast [] noErrShown_nil

end Rules

/-! ## The loop over the pieces -/

/-- One block of a message: the next CHAIN, and DOUT (45_mode_controller.md R224). -/
def blockResult (m : StartMode) (key chain d : Block) : Block × Block :=
  match m with
  | .cbcEnc => (encryptBlock (blockXor d chain) key, encryptBlock (blockXor d chain) key)
  | .cbcDec => (d, blockXor (decryptBlock d key) chain)
  | .ctr => (ctrInc chain, blockXor d (encryptBlock (ctrInc chain) key))

/-- The Blocks that the driver's loop reads, from piece number j on (45_mode_controller.md R238). -/
def loopBlocks (m : StartMode) (key : Block) (fill : Nat → Block) : Nat → Block → List (List Byte) → List Block
  | _, _, [] => []
  | j, chain, x :: rest =>
    let r := blockResult m key chain (padPiece (fill j) x)
    r.2 :: loopBlocks m key fill (j + 1) r.1 rest

/-- A message of a mode runs under a key: its last chaining value is chain (45_mode_controller.md R223, R224). -/
structure InMessage (m : StartMode) (key chain : Block) (s : State) : Prop where
  mode    : s.mode = startedMode m
  rkValid : s.rkValid = true
  key     : s.key = key
  chain   : s.chain = chain

/-- P holds of every run that is back in IDLE, has shown no ERR and has read these Blocks. -/
def HoldsAfterReading (P : HostRun → Prop) (blocks : List Block) : Prop :=
  ∀ r : HostRun, r.core.mode = .idle → NoErrShown r.core.busLog → r.blocks = blocks → P r

section Loop

variable {P : HostRun → Prop} {m : StartMode} {key chain : Block} {bs : List Block} {s : State}

theorem InMessage.with_din (h : InMessage m key chain s) (d : Block) : InMessage m key chain { s with din := d } :=
  ⟨h.mode, h.rkValid, h.key, h.chain⟩

/-- The message one block further on, with its new chaining value in CHAIN. -/
theorem InMessage.next (h : InMessage m key chain s) (c d o : Block) :
    InMessage m key c (doneWith { s with din := d, chain := c, dout := o }) :=
  ⟨h.mode, h.rkValid, h.key, rfl⟩

/-- MODE_BLOCK within a message (45_mode_controller.md R224). -/
theorem InMessage.exec_modeBlock (h : InMessage m key chain s) :
    exec .modeBlock s = .next (doneWith { s with
      chain := (blockResult m key chain s.din).1, dout := (blockResult m key chain s.din).2 }) := by
  obtain ⟨hm, hv, rfl, rfl⟩ := h
  cases m with
  | cbcEnc => exact exec_modeBlock_cbcEnc hm hv
  | cbcDec => exact exec_modeBlock_cbcDec hm hv
  | ctr => exact exec_modeBlock_ctr hm hv

/-- The loop reads loopBlocks and ends the message, whatever the pad bytes are (45_mode_controller.md R238). -/
theorem programEnds_driverLoop {fill : Nat → Block} {j : Nat} {ps : List (List Byte)} (hmsg : InMessage m key chain s)
    (hP : HoldsAfterReading P (bs ++ loopBlocks m key fill j chain ps)) :
    ProgramEnds P (driverLoop fill j ps) bs s := by
  induction ps generalizing j chain bs s with
  | nil => exact .exec rfl (exec_modeEnd s) rfl (.nil fun _ _ _ hl => hP _ rfl hl (List.append_nil bs).symm)
  | cons x ps ih =>
    refine .wrb (by decide) (by decide) (by decide) ?_
    rw [writeBlock_din]
    refine .exec rfl (hmsg.with_din _).exec_modeBlock rfl (.rdb_dout (ih (hmsg.next _ _ _) ?_))
    rw [List.append_assoc]
    exact hP

/-- The Block that a message begins with: given, or the next draw of the random-bytes port (45_mode_controller.md R223,
R236). -/
def givenOrDrawn (pre : Option Block) (s : State) : Block := pre.getD (rngBlock s)

/-- The Blocks that the driver reads: the message's first when it encrypts, then those of the loop
(45_mode_controller.md R238). -/
def driverBlocks (dir : Direction) (m : StartMode) (key : Block) (fill : Nat → Block) (v : Block)
    (ps : List (List Byte)) : List Block :=
  (if dir = .enc then [v] else []) ++ loopBlocks m key fill 0 v ps

/-- The driver's program once MODE_START has completed with v (45_mode_controller.md R238). -/
theorem programEnds_begun {dir : Direction} {fill : Nat → Block} {ps : List (List Byte)} {v : Block}
    (hP : HoldsAfterReading P (driverBlocks dir m key fill v ps))
    (hmsg : InMessage m key v s) (hdout : s.dout = v) :
    ProgramEnds P ((if dir = .enc then [.rdb 0x030] else []) ++ driverLoop fill 0 ps) [] s := by
  cases dir with
  | enc => exact .rdb_dout (programEnds_driverLoop hmsg (by rw [hdout]; exact hP))
  | dec => exact programEnds_driverLoop hmsg hP

/-- The driver's program from a core at rest (45_mode_controller.md R238). -/
theorem programEnds_driverProgram {data : List Byte} {dir : Direction} {mode : CipherMode} {pre : Option Block}
    {fill : Nat → Block} (hdrawn : pre = none → dir = .enc)
    (hP : HoldsAfterReading P
      (driverBlocks dir (driverMode mode dir) key fill (givenOrDrawn pre s) (pieces data))) :
    ProgramEnds P (driverProgram data key dir mode pre fill) [] s := by
  refine .wrb (by decide) (by decide) (by decide) ?_
  rw [writeBlock_key]
  cases pre with
  | some v =>
    refine .wrb (by decide) (by decide) (by decide) ?_
    rw [writeBlock_iv]
    have hwf : (Instr.modeStart (driverMode mode dir) false).wf = true := by simp [Instr.wf]
    exact .exec hwf (exec_modeStart_wf hwf) rfl (programEnds_begun hP ⟨rfl, rfl, rfl, rfl⟩ rfl)
  | none =>
    obtain rfl := hdrawn rfl
    have hwf : (Instr.modeStart (driverMode mode .enc) true).wf = true := by cases mode <;> rfl
    exact .exec hwf (exec_modeStart_wf hwf) rfl (programEnds_begun hP ⟨rfl, rfl, rfl, rfl⟩ rfl)

end Loop

/-! ## What the Blocks amount to -/

/-- (RDB 0x030)[0 : len(x)] for each piece x (45_mode_controller.md R238). -/
def cutBlocks (ps : List (List Byte)) (bs : List Block) : List Byte :=
  (List.zipWith (fun x b => (blockBytes b).take x.length) ps bs).flatten

/-- Every piece is at most 16 bytes long, and exactly 16 where the mode needs whole pieces (45_mode_controller.md R231
to R233). -/
theorem length_of_mem_pieces {m : StartMode} {l x : List Byte} (h : WholeFor m l) (hx : x ∈ pieces l) :
    x.length ≤ 16 ∧ (m ≠ .ctr → x.length = 16) := by
  obtain ⟨j, hj, rfl⟩ := List.mem_map.1 hx
  have hlt := List.mem_range.1 hj
  have hlen : (piece l j).length = min 16 (l.length - 16 * j) := by rw [piece, List.length_take, List.length_drop]
  refine ⟨by omega, fun hm => ?_⟩
  have := h hm
  omega

section Output

variable (m : StartMode) (key v : Block) (fill : Block) (x : List Byte) (ps : List (List Byte))

/-- A piece of CTR data is XORed with the first bytes of its key stream Block; the pad bytes are cut off
(45_mode_controller.md R239). -/
theorem take_blockXor_padPiece (k : Block) (hx : x.length ≤ 16) :
    (blockBytes (blockXor (padPiece fill x) k)).take x.length = List.zipWith (· ^^^ ·) x (blockBytes k) := by
  apply List.ext_getElem
  · simp
  · intro i h1 h2
    have hi : i < x.length := by simp at h1; omega
    simp [get_blockBytes _ i (by omega), padPiece, hi]

/-- One block of the core, cut to its piece, is one turn of the message function's loop (45_mode_controller.md R231 to
R233). -/
theorem streamPieces_cons (hx : x.length ≤ 16) (hfull : m ≠ .ctr → x.length = 16) :
    streamPieces m key v (x :: ps) =
      (blockBytes (blockResult m key v (padPiece fill x)).2).take x.length ++
        streamPieces m key (blockResult m key v (padPiece fill x)).1 ps := by
  cases m with
  | cbcEnc | cbcDec =>
    have hlen := hfull (by decide)
    rw [padPiece_full _ hlen, hlen, List.take_of_length_le (by simp)]
    rfl
  | ctr =>
    rw [blockResult, take_blockXor_padPiece fill x _ hx]
    rfl

end Output

/-- What the driver makes of the loop's Blocks is what the message function makes of the pieces, whatever the pad bytes
are (45_mode_controller.md R240). -/
theorem cutBlocks_loopBlocks {m : StartMode} {key v : Block} {fill : Nat → Block} {j : Nat} {ps : List (List Byte)}
    (h : ∀ x ∈ ps, x.length ≤ 16 ∧ (m ≠ .ctr → x.length = 16)) :
    cutBlocks ps (loopBlocks m key fill j v ps) = streamPieces m key v ps := by
  induction ps generalizing j v with
  | nil => cases m <;> rfl
  | cons x ps ih =>
    obtain ⟨hx, hfull⟩ := h x List.mem_cons_self
    rw [streamPieces_cons m key v (fill j) x ps hx hfull, ← ih fun y hy => h y (List.mem_cons_of_mem x hy)]
    rfl

section DriverOutput

variable {mode : CipherMode} {key v : Block} {fill : Nat → Block} {data : List Byte}

theorem driverOutput_enc (h : WholeFor (driverMode mode .enc) data) :
    driverOutput .enc data (driverBlocks .enc (driverMode mode .enc) key fill v (pieces data)) =
      blockBytes v ++ streamPieces (driverMode mode .enc) key v (pieces data) := by
  rw [← cutBlocks_loopBlocks (fill := fill) (j := 0) fun x hx => length_of_mem_pieces h hx]
  simp [driverOutput, driverBlocks, cutBlocks]

theorem driverOutput_dec (h : WholeFor (driverMode mode .dec) data) :
    driverOutput .dec data (driverBlocks .dec (driverMode mode .dec) key fill v (pieces data)) =
      streamPieces (driverMode mode .dec) key v (pieces data) :=
  cutBlocks_loopBlocks fun _ hx => length_of_mem_pieces h hx

end DriverOutput

/-- Settles O60: the program reads the Blocks of the message, and they amount to the message function's bytes. -/
theorem driverMeetsTheMessageFunctions : Obligations.DriverMeetsTheMessageFunctions := by
  refine ⟨fun s p key mode iv fill prog hr h => ?_, fun s c key mode fill prog hr h => ?_⟩
  · cases hc : encryptCheck p key mode iv with
    | some e => cases (driveEncrypt_eq_error_iff.2 hc).symm.trans h
    | none =>
      rw [driveEncrypt, hc] at h
      cases h
      refine ProgramEnds.startProgram
        (programEnds_driverProgram (fun _ => rfl) fun r hidle hlog hblocks => ⟨hidle, hlog, ?_⟩) hr
      rw [hblocks, driverOutput_enc (wholeFor_of_encryptCheck hc)]
      exact encryptMessage_of_checked hc
  · cases hc : decryptCheck c key mode with
    | some e => cases (driveDecrypt_eq_error_iff.2 hc).symm.trans h
    | none =>
      rw [driveDecrypt, hc] at h
      cases h
      refine ProgramEnds.startProgram
        (programEnds_driverProgram (by simp) fun r hidle hlog hblocks => ⟨hidle, hlog, ?_⟩) hr
      rw [hblocks, driverOutput_dec (wholeFor_of_decryptCheck hc)]
      exact decryptMessage_of_checked hc

end Sys2Proof.Machine
end

section
/-! PROOFS. NOP: the next state, and STATUS.ERR after a completion without an error (46_control.md R270). -/

namespace Sys2Proof.Machine

theorem exec_nop (s : State) : exec .nop s = .next (doneWith s) := rfl

/-- After a command that succeeds, STATUS shows ERR = 0 (10_state.md R39; 30_encoding.md R93). -/
theorem statusWord_err_doneWith (s : State) : (statusWord (doneWith s)).getLsbD 2 = false := by
  have hok : ¬ errFlag (doneWith s) = true := fun herr => (errFlag_iff _).1 herr (doneWith_errcode s)
  rw [statusWord_err]
  exact Bool.eq_false_of_not_eq_true hok

/-- Settles O51: the next state is the completion alone, whose STATUS shows no error. -/
theorem nopOnlyCompletes : Obligations.NopOnlyCompletes := fun s =>
  ⟨_, exec_nop s, rfl, statusWord_err_doneWith s⟩

end Sys2Proof.Machine
end

section
/-! PROOFS. The reset input and the end of the build: what the host reads while the build runs, and the state it leaves
(70_reset_and_hazards.md R310, R311). -/

namespace Sys2Proof.Machine

section Build

variable {s : State} {off : Nat}

/-- The build as the host sees it: SBOX_READY shows in STATUS and the ROM windows only, and no word shows the fields of
the model's own (20_memory.md R63; log entry 10). -/
theorem windowRead_with_sboxReady (ho : WordOffset off) (hstatus : off ≠ 0x004) (hrom : off < 0x100 ∨ 0x300 ≤ off)
    (ready : Bool) (draws : Nat) (es : List Event) (log : List BusRecord) :
    windowRead off { s with sboxReady := ready, rngDraws := draws, inputs := es, busLog := log } = windowRead off s := by
  obtain ⟨-, hal⟩ := ho
  obtain ⟨-, hr⟩ | ⟨_, _, hr⟩ | ⟨-, -, hr⟩ | ⟨-, -, hr⟩ | ⟨-, -, hr⟩ | ⟨-, -, hr⟩ | ⟨-, -, hr⟩ | ⟨-, -, hr⟩ |
    ⟨_, _, hr⟩ | ⟨_, _, hr⟩ | ⟨-, -, n, hr⟩ | ⟨-, hr⟩ := regionOf_cases off
  · simp [windowRead, hr]
  · exact absurd (by omega) hstatus
  · simp [windowRead, hr, gfWord]
  · simp [windowRead, hr]
  · simp [windowRead, hr]
  · simp [windowRead, hr]
  · simp [windowRead, hr]
  · simp [windowRead, hr]
  · omega
  · omega
  · simp [windowRead, hr]
  · simp [windowRead, hr]

/-- Every word of the ROM windows reads 0 during the build (70_reset_and_hazards.md R311). -/
theorem windowRead_rom_building (hs : s.sboxReady = false) (hal : off % 4 = 0) (hlo : 0x100 ≤ off) (hhi : off < 0x300) :
    windowRead off s = 0 := by
  by_cases hsbox : off < 0x200
  · obtain ⟨k, rfl⟩ : ∃ k : Fin 64, off = 0x100 + 4 * k.val := ⟨⟨(off - 0x100) / 4, by omega⟩, by dsimp only; omega⟩
    rw [windowRead_sbox, romWord_building sbox k hs]
  · obtain ⟨k, rfl⟩ : ∃ k : Fin 64, off = 0x200 + 4 * k.val := ⟨⟨(off - 0x200) / 4, by omega⟩, by dsimp only; omega⟩
    rw [windowRead_invSbox, romWord_building invSbox k hs]

/-- Every word but STATUS reads 0 after the reset step (70_reset_and_hazards.md R310, R311). -/
theorem windowRead_resetStep (ho : WordOffset off) (hstatus : off ≠ 0x004) : windowRead off (resetStep s) = 0 := by
  by_cases hrom : off < 0x100 ∨ 0x300 ≤ off
  · rw [resetStep_eq, windowRead_with_sboxReady ho hstatus hrom, windowRead_reset ho hstatus hrom]
  · exact windowRead_rom_building rfl ho.2 (by omega) (by omega)

/-- STATUS after the reset step shows BUSY alone, whatever was pending (70_reset_and_hazards.md R310). -/
theorem windowRead_status_resetStep : windowRead 0x004 (resetStep s) = 0x00000001 := by
  have hs : statusWord (resetStep s) = statusWord (resetStep State.reset) := rfl
  exact hs.trans (by decide)

/-- The core's turn while the build runs ends it (70_reset_and_hazards.md R311). -/
theorem step_core_building (hc : CoreTurn s) (hb : building s = true) :
    step s = .next (endBuild (setInputs s.inputs.tail s)) := by
  rw [step_core hc, coreStep_build ((building_setInputs _ s).trans hb)]

end Build

/-- Settles O24: windowRead_resetStep for the words, and the core's turn ends the build over the reset values. -/
theorem resetThenBuild : Obligations.ResetThenBuild := by
  intro s rest hi
  refine ⟨_, step_reset hi, rfl, windowRead_status_resetStep, fun off => windowRead_resetStep, rfl, rfl, rfl, fun b hc => ?_⟩
  exact step_core_building (s := { resetStep (setInputs rest s) with ovr := b }) hc rfl

end Sys2Proof.Machine
end
